-- ==== Sys2Proof/Word.lean ====
section
/-! DEFINITION. Word.lean: the widths of the machine's words (00_scope.md R7). -/

namespace Sys2Proof

/-- A command word, `CMD[11:0]` (R46, `CMD_W` = 12). -/
abbrev Command := BitVec 12

/-- A packed field (R3, `FIELD_W` = 9). -/
abbrev Field := BitVec 9

/-- A stream byte (R3, `BYTE_W` = 8). -/
abbrev Byte := BitVec 8

/-- A value on the reader output stream (R73, `VAL_W` = 10). -/
abbrev Value := BitVec 10

/-- An accumulator of a channel (R15, R17, `ACC_W` = 16). -/
abbrev Acc := BitVec 16

/-- A bit count of a channel (R16, R18). DEDUCED: "an implementation needs 5 bits" (log entry 1). -/
abbrev Count := BitVec 5

/-- The STATUS register (R19). -/
abbrev StatusWord := BitVec 16

end Sys2Proof
end

