-- ==== Sys2Proof/Syntax.lean ====
section
/-! DEFINITION. Syntax.lean: the commands of the core, one constructor per row of opcode_table.json
(30_encoding.md R48). An illegal word is no command: it has no constructor (R50, R80). -/

namespace Sys2Proof

/-- The six commands. The operand types are exactly as wide as the operand fields (R47, R49), so an
operand the encoding cannot carry is no term of this type. -/
inductive Instr where
  /-- NOP (R79): the idle word. -/
  | nop
  /-- WPUSH v (R62): push one 9-bit field into the writer. -/
  | wpush (v : Field)
  /-- WFIN (R64): pad and emit the writer's partial byte, and clean the writer. -/
  | wfin
  /-- WABORT (R65): discard the writer's pending bits. -/
  | wabort
  /-- RFEED b (R71): feed one byte to the reader. -/
  | rfeed (b : Byte)
  /-- REND (R74): discard the reader's trailing bits. -/
  | rend
  deriving DecidableEq, Repr

end Sys2Proof
end

