-- ==== Sys2Proof/WellFormed.lean ====
section
/-! DEFINITION. WellFormed.lean: which command words are legal, from the match and mask columns of the
opcode map (30_encoding.md R48), and the operand ranges of the commands (R49, R53).
It is written apart from the decoder, which follows R52, so that the two can be proved equal. -/

namespace Sys2Proof

/-- One row of the opcode map: a word belongs to it when `word & mask == pattern` (R48). -/
structure OpcodeRow where
  mnemonic : String
  pattern  : Command
  mask     : Command
  deriving DecidableEq, Repr

/-- The opcode map in match/mask form (R48). -/
def opcodeTable : List OpcodeRow :=
  [ ⟨"NOP", 0x000#12, 0xFFF#12⟩,
    ⟨"WPUSH", 0x200#12, 0xE00#12⟩,
    ⟨"WFIN", 0x400#12, 0xFFF#12⟩,
    ⟨"WABORT", 0x600#12, 0xFFF#12⟩,
    ⟨"RFEED", 0x800#12, 0xF00#12⟩,
    ⟨"REND", 0xA00#12, 0xFFF#12⟩ ]

/-- The word lies in the row (R48). -/
def OpcodeRow.matchesWord (r : OpcodeRow) (w : Command) : Bool :=
  w &&& r.mask == r.pattern

/-- A command word is well formed (legal) when some row of the opcode map holds it (R48, R51). -/
def Command.wellFormed (w : Command) : Bool :=
  opcodeTable.any (fun r => r.matchesWord w)

/-- The mnemonic of a command, as the opcode map spells it (R48). -/
def Instr.mnemonic : Instr → String
  | .nop => "NOP"
  | .wpush _ => "WPUSH"
  | .wfin => "WFIN"
  | .wabort => "WABORT"
  | .rfeed _ => "RFEED"
  | .rend => "REND"

/-- The operand ranges: `WPUSH v` takes 0..511, `RFEED b` takes 0..255 (R49, R53). The operand types have
exactly these ranges, so the check refuses no term of `Instr`; the terms that can be ill formed are
command words (`Command.wellFormed`) and source statements (`AsmStmt.wellFormed`). -/
def Instr.wellFormed : Instr → Bool
  | .nop => true
  | .wpush v => v.toNat ≤ 511
  | .wfin => true
  | .wabort => true
  | .rfeed b => b.toNat ≤ 255
  | .rend => true

end Sys2Proof
end

