-- ==== Sys2Proof/Decode.lean ====
section
/-! DEFINITION. Decode.lean: the decoder of 30_encoding.md R52, total on every 12-bit word and rejecting
by name, and the encoder of the operand formats of R47. -/

namespace Sys2Proof

/-- `OP = CMD[11:9]` (R46). -/
def Command.op (w : Command) : BitVec 3 := w.extractLsb' 9 3

/-- `OPND = CMD[8:0]` (R46). -/
def Command.opnd (w : Command) : BitVec 9 := w.extractLsb' 0 9

/-- Why a word is illegal (R50). -/
inductive DecodeReject where
  /-- OP is 110 or 111. -/
  | reservedOpcode
  /-- Format N with a bit of `CMD[8:0]` set. -/
  | nonzeroOperand
  /-- Format B8 with `CMD[8]` set. -/
  | reservedBit8
  deriving DecidableEq, Repr

/-- Format N: all of OPND is reserved and must be 0 (R47). -/
def decodeN (i : Instr) (opnd : BitVec 9) : Except DecodeReject Instr :=
  if opnd = 0#9 then .ok i else .error .nonzeroOperand

/-- Format B8: bit 8 is reserved and must be 0, the byte is `CMD[7:0]` (R47, R49). -/
def decodeB8 (i : Byte → Instr) (opnd : BitVec 9) : Except DecodeReject Instr :=
  if opnd.getLsbD 8 then .error .reservedBit8 else .ok (i (opnd.extractLsb' 0 8))

/-- The decoder (R52). -/
def decode (w : Command) : Except DecodeReject Instr :=
  match w.op.toNat with
  | 0 => decodeN .nop w.opnd
  | 1 => .ok (.wpush w.opnd)
  | 2 => decodeN .wfin w.opnd
  | 3 => decodeN .wabort w.opnd
  | 4 => decodeB8 .rfeed w.opnd
  | 5 => decodeN .rend w.opnd
  | _ => .error .reservedOpcode

/-- The instruction read from the host's numbering of a table word: bit 0 is the least significant bit of
the one 12-bit word. The table counts it in whole bytes (16 bits); a number of more than 12 bits is no
command word (log entry 5). -/
def decodeTableWord (_nbits w : Nat) : Option Instr :=
  if w < 4096 then (decode (BitVec.ofNat 12 w)).toOption else none

/-- A word from its two parts, `CMD = OP, OPND` (R46). -/
def commandOf (op : BitVec 3) (opnd : BitVec 9) : Command := op ++ opnd

/-- The encoder (R47, R48): format V9 puts the field in `CMD[8:0]`, format B8 puts the byte in `CMD[7:0]`
under a zero bit 8, format N has a zero operand. -/
def encode : Instr → Command
  | .nop => commandOf 0b000#3 0#9
  | .wpush v => commandOf 0b001#3 v
  | .wfin => commandOf 0b010#3 0#9
  | .wabort => commandOf 0b011#3 0#9
  | .rfeed b => commandOf 0b100#3 (b.setWidth 9)
  | .rend => commandOf 0b101#3 0#9

end Sys2Proof
end

