-- ==== Sys2Proof/Config.lean ====
section
/-! DEFINITION. Config.lean: what an implementation fixes, and the values the spec leaves open.
Each constant is opaque: nothing can be proved of its value. -/

namespace Sys2Proof.Config

/-- `OUT_DEPTH`, the depth of each output buffer (R7, R116): OPEN, a named parameter. -/
opaque outDepth : Nat

/-- W_ACC before the first reset (R111: "may hold any value"). -/
opaque powerUpWAcc : Acc

/-- W_CNT before the first reset (R111: "including counts outside their stable ranges"). -/
opaque powerUpWCnt : Count

/-- R_ACC before the first reset (R111). -/
opaque powerUpRAcc : Acc

/-- R_CNT before the first reset (R111). -/
opaque powerUpRCnt : Count

/-- ILL before the first reset (R111). -/
opaque powerUpIll : Bool

/-- Whether the `k`-th STATUS read made while a command executes sees that command's effect (R81: the
value before or after it, "never a mixture"; 93_implementation_defined.md: any of the two). -/
opaque statusReadSeesCommand (k : Nat) : Bool

end Sys2Proof.Config
end

