-- ==== Sys2Proof/Machine/State.lean ====
section
/-! DEFINITION. Machine/State.lean: the architectural state (10_state.md), the host's pending inputs, the
reasons a step can stop, and the state after reset. -/

namespace Sys2Proof.Machine

/-- One slot of the core's two inputs: the command port (20_memory.md R44) and the reset input
(70_reset_and_hazards.md R109). -/
inductive HostInput where
  /-- A 12-bit word is presented on the command port. -/
  | command (w : Command)
  /-- Reset is asserted, with or without a word on the port; the word is not executed (R99, R109). -/
  | reset (w : Option Command)
  deriving DecidableEq, Repr

/-- The whole state of the core. STATUS (R19) is a view of it: `State.status`. -/
structure State where
  /-- W_ACC (R15): the writer's pending bits, in its low W_CNT bits. -/
  wAcc : Acc
  /-- W_CNT (R16): how many bits of W_ACC are valid. -/
  wCnt : Count
  /-- R_ACC (R17): the reader's pending bits, in its low R_CNT bits. -/
  rAcc : Acc
  /-- R_CNT (R18): how many bits of R_ACC are valid. -/
  rCnt : Count
  /-- ILL (R20): sticky, set by any illegal word. -/
  ill : Bool
  /-- WOUT (R22): every byte emitted since the start of the run, oldest first. -/
  wOut : List Byte
  /-- ROUT (R22): every value emitted since the start of the run, oldest first. -/
  rOut : List Value
  /-- The host's inputs not yet taken, oldest first (R44, R109). The model's own field (log entry 2). -/
  inputs : List HostInput
  /-- Reset has been asserted since power-up (R111, R112). The model's own field (log entry 3). -/
  hasBeenReset : Bool
  deriving DecidableEq, Repr

/-- The machine has no fault: ILLEGAL_COMMAND, its only exception, sets ILL and goes on (60_exceptions.md
R96, R97, R100). Nobody can raise a value of this type. -/
inductive Fault
  deriving DecidableEq, Repr

/-- Why a step gives no next state. -/
inductive Refusal where
  /-- Raised by `exec` for a command with no meaning yet; no arm raises it. Safe. -/
  | notModelled (mnemonic : String)
  /-- Raised by `runInput` when a word is presented before the first reset: "Commands presented before the
  first reset have no defined effect" (R111). Safe: the model stops where the hardware goes on. -/
  | commandBeforeReset
  deriving DecidableEq, Repr

/-- The machine right after reset, at the start of a run (R27, R109): both channels clean, ILL 0, both
streams empty. No input is pending (log entry 2). -/
def State.reset : State where
  wAcc := 0#16
  wCnt := 0#5
  rAcc := 0#16
  rCnt := 0#5
  ill := false
  wOut := []
  rOut := []
  inputs := []
  hasBeenReset := true

end Sys2Proof.Machine
end

