-- ==== Sys2Proof/Machine/Flags.lean ====
section
/-! DEFINITION. Machine/Flags.lean: ILL and the STATUS view (10_state.md R19, R20, R21). No command computes
a flag; ILL is set by the one exception (`raiseIllegalCommand` in Ops.lean). -/

namespace Sys2Proof.Machine

/-- ILL as the one bit STATUS shows (R19, R20). -/
def State.illBit (s : State) : BitVec 1 := BitVec.ofBool s.ill

/-- STATUS, the fields of R81 from the high end: seven zeros, ILL, `R_CNT[3:0]`, a zero, `W_CNT[2:0]`. -/
def State.status (s : State) : StatusWord :=
  0#7 ++ s.illBit ++ s.rCnt.extractLsb' 0 4 ++ 0#1 ++ s.wCnt.extractLsb' 0 3

/-- The `k`-th STATUS read that falls while a command takes the core from `before` to `after`: one of the
two values, and the spec leaves open which (R81). -/
def concurrentStatus (k : Nat) (before after : State) : StatusWord :=
  if Config.statusReadSeesCommand k then after.status else before.status

end Sys2Proof.Machine
end

