-- ==== Sys2Proof/Machine/Operands.lean ====
section
/-! DEFINITION. Machine/Operands.lean: the operand and bit-field forms of the pseudocode (00_scope.md R8,
30_encoding.md R49). The slices `CMD[8:0]` and `CMD[7:0]` are taken by the decoder. -/

namespace Sys2Proof.Machine

/-- `zext_16(v)` of WPUSH's field (R8, R62). -/
def zextField (v : Field) : Acc := v.setWidth 16

/-- `zext_16(b)` of RFEED's byte (R8, R71). -/
def zextByte (b : Byte) : Acc := b.setWidth 16

/-- `mask_k`, the k low one-bits (R8). -/
def mask (k : Nat) : Acc := BitVec.ofNat 16 (2 ^ k - 1)

/-- `(a >> k) & 0xFF`: the byte of the accumulator whose lowest bit is bit k (R62, R64). -/
def byteAbove (k : Nat) (a : Acc) : Byte := (a >>> k).setWidth 8

/-- `(a >> k) & 0x1FF`: the field of the accumulator whose lowest bit is bit k (R71). -/
def fieldAbove (k : Nat) (a : Acc) : Field := (a >>> k).setWidth 9

/-- `(a << k) & 0xFF`: the low byte of the shifted accumulator (R64). -/
def byteShiftedUp (k : Nat) (a : Acc) : Byte := (a <<< k).setWidth 8

/-- `zext_10(f) + 1`: the value offset of the reader (R7 `OFFSET` = 1, R71, R73). -/
def valueOf (f : Field) : Value := f.setWidth 10 + 1#10

end Sys2Proof.Machine
end

