-- ==== Sys2Proof/Machine/Ops.lean ====
section
/-! DEFINITION. Machine/Ops.lean: the named operations over the state: the two stream primitives of
00_scope.md R9, the channel registers, the exception, the reset input and the taking of one input. -/

namespace Sys2Proof.Machine

/-- `emitW(b)`: appends the byte to WOUT (R9, R22). -/
def State.emitW (s : State) (b : Byte) : State := { s with wOut := s.wOut ++ [b] }

/-- `emitR(v)`: appends the value to ROUT (R9, R22). -/
def State.emitR (s : State) (v : Value) : State := { s with rOut := s.rOut ++ [v] }

/-- `W_ACC <- a; W_CNT <- n` (R62). -/
def State.setWriter (s : State) (a : Acc) (n : Nat) : State :=
  { s with wAcc := a, wCnt := BitVec.ofNat 5 n }

/-- `R_ACC <- a; R_CNT <- n` (R71). -/
def State.setReader (s : State) (a : Acc) (n : Nat) : State :=
  { s with rAcc := a, rCnt := BitVec.ofNat 5 n }

/-- `W_ACC <- 0; W_CNT <- 0`: the writer becomes clean (R28, R64, R65). -/
def State.clearWriter (s : State) : State := s.setWriter 0#16 0

/-- `R_ACC <- 0; R_CNT <- 0`: the reader becomes clean (R28, R74). -/
def State.clearReader (s : State) : State := s.setReader 0#16 0

/-- The loop of WPUSH (R62): while at least 8 bits are valid, emit the top 8, oldest first, and drop them;
then the rest is written back. The fuel bounds the iterations; `n` iterations always suffice. -/
def writerDrain : Nat → Acc → Nat → State → State
  | 0, a, n, s => s.setWriter a n
  | fuel + 1, a, n, s =>
    if 8 ≤ n then
      writerDrain fuel (a &&& mask (n - 8)) (n - 8) (s.emitW (byteAbove (n - 8) a))
    else s.setWriter a n

/-- The loop of RFEED (R71): while at least 9 bits are valid, emit the top 9 as a value, oldest first, and
drop them; then the rest is written back. -/
def readerDrain : Nat → Acc → Nat → State → State
  | 0, a, n, s => s.setReader a n
  | fuel + 1, a, n, s =>
    if 9 ≤ n then
      readerDrain fuel (a &&& mask (n - 9)) (n - 9) (s.emitR (valueOf (fieldAbove (n - 9) a)))
    else s.setReader a n

/-- `raise ILLEGAL_COMMAND(word)`, the one exception (R80, R96, R100): ILL <- 1. It is no trap: it saves
nothing, records nothing and redirects nothing, and no return from it exists (R101). -/
def State.raiseIllegalCommand (s : State) : State := { s with ill := true }

/-- The reset input (R109, R110): the four channel registers and ILL become 0; the streams stay. -/
def State.applyReset (s : State) : State :=
  { s with wAcc := 0#16, wCnt := 0#5, rAcc := 0#16, rCnt := 0#5, ill := false, hasBeenReset := true }

/-- Takes the oldest input from the host, once (R44); none where the host presents nothing. -/
def State.takeInput (s : State) : Option (HostInput × State) :=
  match s.inputs with
  | [] => none
  | h :: rest => some (h, { s with inputs := rest })

/-- The host presents the words on the command port, in order, before whatever it presents later (R44). -/
def State.presenting (s : State) (ws : List Command) : State :=
  { s with inputs := ws.map HostInput.command ++ s.inputs }

/-- The state before the first reset (R111): every register holds a value the spec does not give. -/
def State.powerUp : State where
  wAcc := Config.powerUpWAcc
  wCnt := Config.powerUpWCnt
  rAcc := Config.powerUpRAcc
  rCnt := Config.powerUpRCnt
  ill := Config.powerUpIll
  wOut := []
  rOut := []
  inputs := []
  hasBeenReset := false

end Sys2Proof.Machine
end

