-- ==== Sys2Proof/Machine/Reader.lean ====
section
/-! DEFINITION. Machine/Reader.lean: the reader channel commands (41_reader.md). -/

namespace Sys2Proof.Machine

/-- RFEED b (R71): `a <- (R_ACC << 8) | zext_16(b)`, `n <- R_CNT + 8`, then the loop. -/
def execRfeed (b : Byte) (s : State) : Host.Outcome State Fault Refusal :=
  let a := (s.rAcc <<< 8) ||| zextByte b
  let n := s.rCnt.toNat + 8
  .next (readerDrain n a n s)

/-- REND (R74): the trailing bits are discarded silently; nothing is emitted. -/
def execRend (s : State) : Host.Outcome State Fault Refusal :=
  .next s.clearReader

end Sys2Proof.Machine
end

