-- ==== Sys2Proof/Machine/Writer.lean ====
section
/-! DEFINITION. Machine/Writer.lean: the writer channel commands (40_writer.md). -/

namespace Sys2Proof.Machine

/-- WPUSH v (R62): `a <- (W_ACC << 9) | zext_16(v)`, `n <- W_CNT + 9`, then the loop. -/
def execWpush (v : Field) (s : State) : Host.Outcome State Fault Refusal :=
  let a := (s.wAcc <<< 9) ||| zextField v
  let n := s.wCnt.toNat + 9
  .next (writerDrain n a n s)

/-- WFIN (R64): the pending bits go to the high end of a byte over zero padding; then the writer is clean. -/
def execWfin (s : State) : Host.Outcome State Fault Refusal :=
  if 0 < s.wCnt.toNat then
    .next (s.emitW (byteShiftedUp (8 - s.wCnt.toNat) s.wAcc)).clearWriter
  else .next s.clearWriter

/-- WABORT (R65): the pending bits are lost; nothing is emitted. -/
def execWabort (s : State) : Host.Outcome State Fault Refusal :=
  .next s.clearWriter

end Sys2Proof.Machine
end

