-- ==== Sys2Proof/Machine/Dispatch.lean ====
section
/-! DEFINITION. Machine/Dispatch.lean: one arm per command. -/

namespace Sys2Proof.Machine

def exec (i : Instr) (s : State) : Host.Outcome State Fault Refusal :=
  match i with
  | .nop => Sys2Proof.Machine.execNop s
  | .wpush v => Sys2Proof.Machine.execWpush v s
  | .wfin => Sys2Proof.Machine.execWfin s
  | .wabort => Sys2Proof.Machine.execWabort s
  | .rfeed b => Sys2Proof.Machine.execRfeed b s
  | .rend => Sys2Proof.Machine.execRend s

end Sys2Proof.Machine
end

