-- ==== Sys2Proof/Machine/Port.lean ====
section
/-! DEFINITION. Machine/Port.lean: what the core does with one input slot (20_memory.md R44, 42_control.md
R80, 70_reset_and_hazards.md R109). -/

namespace Sys2Proof.Machine

/-- A word taken from the command port: a legal word runs its command, any other raises ILLEGAL_COMMAND
(R52, R80, R99). -/
def execWord (w : Command) (s : State) : Host.Outcome State Fault Refusal :=
  match decode w with
  | .ok i => exec i s
  | .error _ => .next s.raiseIllegalCommand

/-- One input slot. Reset takes precedence over a word presented with it (R99). A word before the first
reset is refused (R111). -/
def runInput (h : HostInput) (s : State) : Host.Outcome State Fault Refusal :=
  match h with
  | .reset _ => .next s.applyReset
  | .command w => if s.hasBeenReset then execWord w s else .refused .commandBeforeReset

end Sys2Proof.Machine
end

