-- ==== Sys2Proof/Machine/Step.lean ====
section
/-! DEFINITION. Machine/Step.lean: one step takes one input slot and runs it to completion (00_scope.md R10,
20_memory.md R43, R44, 70_reset_and_hazards.md R117). -/

namespace Sys2Proof.Machine

/-- One step. Where the host presents nothing the core idles (log entry 4). -/
def step (s : State) : Host.Outcome State Fault Refusal :=
  match s.takeInput with
  | none => .next s
  | some (h, t) => runInput h t

/-- `s` with the word presented next on the command port (log entry 5). Reset is taken as asserted before
it, the launch premise of R111 and R112. -/
def State.withFetchWord (s : State) (_nbits w : Nat) : State :=
  { s with inputs := .command (BitVec.ofNat 12 w) :: s.inputs, hasBeenReset := true }

end Sys2Proof.Machine
end

