-- ==== Sys2Proof/Machine/Assembler.lean ====
section
/-! DEFINITION. Machine/Assembler.lean: the assembler's text form and the pseudo-instructions (30_encoding.md
R53, R54). A text is a list of characters, one list a line. -/

namespace Sys2Proof.Machine.Assembler

/-- A source statement: a command or a pseudo-instruction, with operands of any size. -/
inductive AsmStmt where
  | nop
  | wpush (v : Nat)
  | wfin
  | wabort
  | rfeed (b : Nat)
  | rend
  /-- `PUSHN n` (R54). -/
  | pushn (n : Nat)
  /-- `RABORT` (R54). -/
  | rabort
  /-- `WSTREAM f_0, …, f_{n-1}` (R54). -/
  | wstream (fs : List Nat)
  /-- `RSTREAM b_0, …, b_{m-1}` (R54). -/
  | rstream (bs : List Nat)
  deriving DecidableEq, Repr

/-- Why a line is refused (R53). -/
inductive AsmError where
  | unknownMnemonic
  /-- An operand is missing, is too many, is no literal, or is out of range. -/
  | badOperand
  deriving DecidableEq, Repr

/-- The operand ranges (R53, R54). -/
def AsmStmt.wellFormed : AsmStmt → Bool
  | .nop | .wfin | .wabort | .rend | .rabort => true
  | .wpush v => v ≤ 511
  | .rfeed b => b ≤ 255
  | .pushn n => 1 ≤ n && n ≤ 512
  | .wstream fs => fs.all (fun v => v ≤ 511)
  | .rstream bs => bs.all (fun b => b ≤ 255)

/-- The commands a well-formed statement stands for (R54). -/
def AsmStmt.expand : AsmStmt → List Instr
  | .nop => [.nop]
  | .wpush v => [.wpush (BitVec.ofNat 9 v)]
  | .wfin => [.wfin]
  | .wabort => [.wabort]
  | .rfeed b => [.rfeed (BitVec.ofNat 8 b)]
  | .rend => [.rend]
  | .pushn n => [.wpush (BitVec.ofNat 9 (n - 1))]
  | .rabort => [.rend]
  | .wstream fs => fs.map (fun v => .wpush (BitVec.ofNat 9 v)) ++ [.wfin]
  | .rstream bs => bs.map (fun b => .rfeed (BitVec.ofNat 8 b)) ++ [.rend]

/-- White space inside a line (log entry 8). -/
def isBlank (c : Char) : Bool := c == ' ' || c == '\t'

/-- `;` begins a comment that runs to the end of the line (R53). -/
def withoutComment (line : List Char) : List Char := line.takeWhile (fun c => c != ';')

/-- The pieces between separators. -/
def pieces (sep : Char → Bool) : List Char → List (List Char)
  | [] => [[]]
  | c :: cs =>
    if sep c then [] :: pieces sep cs
    else match pieces sep cs with
      | [] => [[c]]
      | w :: ws => (c :: w) :: ws

/-- The words of a line: its pieces between white space, without empty ones. -/
def wordsOf (cs : List Char) : List (List Char) := (pieces isBlank cs).filter (fun w => !w.isEmpty)

/-- The value of a digit in hexadecimal, which contains decimal and binary. -/
def digitValue (c : Char) : Option Nat :=
  let n := c.toNat
  if 48 ≤ n ∧ n ≤ 57 then some (n - 48)
  else if 65 ≤ n ∧ n ≤ 70 then some (n - 55)
  else if 97 ≤ n ∧ n ≤ 102 then some (n - 87)
  else none

/-- The digits of a number, continuing from `acc`. -/
def readFrom (base acc : Nat) : List Char → Option Nat
  | [] => some acc
  | c :: cs =>
    match digitValue c with
    | some d => if d < base then readFrom base (acc * base + d) cs else none
    | none => none

/-- A number of at least one digit. -/
def readNumber (base : Nat) (cs : List Char) : Option Nat :=
  if cs.isEmpty then none else readFrom base 0 cs

/-- A numeric literal: decimal, hexadecimal with `0x`, or binary with `0b` (R53). -/
def literal : List Char → Option Nat
  | '0' :: 'x' :: ds => readNumber 16 ds
  | '0' :: 'b' :: ds => readNumber 2 ds
  | ds => readNumber 10 ds

/-- No operand: NOP, WFIN, WABORT, REND and RABORT refuse any (R53). -/
def noOperand (st : AsmStmt) (rest : List Char) : Except AsmError AsmStmt :=
  if (wordsOf rest).isEmpty then .ok st else .error .badOperand

/-- Exactly one literal. -/
def oneOperand (st : Nat → AsmStmt) (rest : List Char) : Except AsmError AsmStmt :=
  match wordsOf rest with
  | [w] => match literal w with
    | some n => .ok (st n)
    | none => .error .badOperand
  | _ => .error .badOperand

/-- The literals of comma-separated operands. -/
def literals : List (List Char) → Option (List Nat)
  | [] => some []
  | p :: ps =>
    match wordsOf p with
    | [w] => match literal w, literals ps with
      | some n, some ns => some (n :: ns)
      | _, _ => none
    | _ => none

/-- Any number of literals, separated by commas (R54). -/
def manyOperands (st : List Nat → AsmStmt) (rest : List Char) : Except AsmError AsmStmt :=
  if (wordsOf rest).isEmpty then .ok (st [])
  else match literals (pieces (fun c => c == ',') rest) with
    | some ns => .ok (st ns)
    | none => .error .badOperand

/-- A mnemonic with the text after it (R53, R54). -/
def parseStmt (mnemonic rest : List Char) : Except AsmError AsmStmt :=
  if mnemonic = ['N', 'O', 'P'] then noOperand .nop rest
  else if mnemonic = ['W', 'P', 'U', 'S', 'H'] then oneOperand .wpush rest
  else if mnemonic = ['W', 'F', 'I', 'N'] then noOperand .wfin rest
  else if mnemonic = ['W', 'A', 'B', 'O', 'R', 'T'] then noOperand .wabort rest
  else if mnemonic = ['R', 'F', 'E', 'E', 'D'] then oneOperand .rfeed rest
  else if mnemonic = ['R', 'E', 'N', 'D'] then noOperand .rend rest
  else if mnemonic = ['P', 'U', 'S', 'H', 'N'] then oneOperand .pushn rest
  else if mnemonic = ['R', 'A', 'B', 'O', 'R', 'T'] then noOperand .rabort rest
  else if mnemonic = ['W', 'S', 'T', 'R', 'E', 'A', 'M'] then manyOperands .wstream rest
  else if mnemonic = ['R', 'S', 'T', 'R', 'E', 'A', 'M'] then manyOperands .rstream rest
  else .error .unknownMnemonic

/-- The commands of a statement; operands out of range are refused (R53, R54). -/
def assembleStmt (st : AsmStmt) : Except AsmError (List Instr) :=
  if st.wellFormed then .ok st.expand else .error .badOperand

/-- The commands of one line; a line of white space or comment only has none. -/
def assembleLine (line : List Char) : Except AsmError (List Instr) :=
  let code := (withoutComment line).dropWhile isBlank
  if code.isEmpty then .ok []
  else
    match parseStmt (code.takeWhile (fun c => !isBlank c)) (code.dropWhile (fun c => !isBlank c)) with
    | .ok st => assembleStmt st
    | .error e => .error e

/-- The commands of a text, or the first refusal. -/
def assemble : List (List Char) → Except AsmError (List Instr)
  | [] => .ok []
  | l :: ls =>
    match assembleLine l with
    | .error e => .error e
    | .ok is => match assemble ls with
      | .error e => .error e
      | .ok js => .ok (is ++ js)

/-- A hexadecimal digit, upper case. -/
def hexDigit (n : Nat) : Char := Char.ofNat (if n < 10 then 48 + n else 55 + n)

/-- A number below 4096 as three hexadecimal digits. -/
def hex3 (n : Nat) : List Char := [hexDigit (n / 256), hexDigit (n / 16 % 16), hexDigit (n % 16)]

/-- An operand as a hexadecimal literal, of two digits where they suffice (R53's and R55's examples). -/
def hexLiteral (n : Nat) : List Char := '0' :: 'x' :: (if n < 256 then (hex3 n).tail else hex3 n)

/-- The text of a command (R53). -/
def sourceText : Instr → List Char
  | .nop => ['N', 'O', 'P']
  | .wpush v => ['W', 'P', 'U', 'S', 'H', ' '] ++ hexLiteral v.toNat
  | .wfin => ['W', 'F', 'I', 'N']
  | .wabort => ['W', 'A', 'B', 'O', 'R', 'T']
  | .rfeed b => ['R', 'F', 'E', 'E', 'D', ' '] ++ hexLiteral b.toNat
  | .rend => ['R', 'E', 'N', 'D']

/-- A line of a listing: the word as three hexadecimal digits before the text (R53). -/
def listingLine (i : Instr) : List Char := hex3 (encode i).toNat ++ [' ', ' '] ++ sourceText i

end Sys2Proof.Machine.Assembler
end

