-- ==== Sys2Proof/Machine/Backpressure.lean ====
section
/-! DEFINITION. Machine/Backpressure.lean: an implementation with output buffers of finite depth
(70_reset_and_hazards.md R116): the architectural machine, held while a command's output does not fit. -/

namespace Sys2Proof.Machine

/-- How many bytes the command would append to WOUT (20_memory.md R40, R63, R64). -/
def Instr.wAppends (i : Instr) (s : State) : Nat :=
  match i with
  | .wpush _ => if s.wCnt.toNat = 7 then 2 else 1
  | .wfin => if s.wCnt.toNat = 0 then 0 else 1
  | .nop => 0
  | .wabort => 0
  | .rfeed _ => 0
  | .rend => 0

/-- How many values the command would append to ROUT (20_memory.md R40, R72). -/
def Instr.rAppends (i : Instr) (s : State) : Nat :=
  match i with
  | .rfeed _ => if s.rCnt.toNat = 0 then 0 else 1
  | .nop => 0
  | .wpush _ => 0
  | .wfin => 0
  | .wabort => 0
  | .rend => 0

/-- The implementation: the core, and how much of each output stream the host has consumed. -/
structure Buffered where
  core : State
  /-- The first `wTaken` bytes of WOUT have been consumed. -/
  wTaken : Nat
  /-- The first `rTaken` values of ROUT have been consumed. -/
  rTaken : Nat
  deriving DecidableEq, Repr

/-- The bytes standing in the WOUT buffer. -/
def Buffered.wBuffer (b : Buffered) : List Byte := b.core.wOut.drop b.wTaken

/-- The values standing in the ROUT buffer. -/
def Buffered.rBuffer (b : Buffered) : List Value := b.core.rOut.drop b.rTaken

/-- `n` more elements fit a buffer that holds `used`; a command that appends nothing always fits. -/
def fits (depth used n : Nat) : Bool := n == 0 || used + n ≤ depth

/-- The command fits both buffers; "A WPUSH needing two bytes is held until both fit" (R116). -/
def Buffered.commandFits (depth : Nat) (b : Buffered) (i : Instr) : Bool :=
  fits depth b.wBuffer.length (Instr.wAppends i b.core)
    && fits depth b.rBuffer.length (Instr.rAppends i b.core)

/-- The core holds the command on its port: its output does not fit (R116). Reset and illegal words append
nothing and are never held; a word before the first reset is no command to hold (R111). -/
def Buffered.held (depth : Nat) (b : Buffered) : Bool :=
  match b.core.inputs with
  | .command w :: _ => match decode w with
    | .ok i => b.core.hasBeenReset && !b.commandFits depth i
    | .error _ => false
  | _ => false

/-- What happens next to the implementation. -/
inductive BufferedMove where
  /-- The core takes its next input, or holds it. -/
  | advance
  /-- The host consumes one byte of WOUT, where there is one. -/
  | consumeW
  /-- The host consumes one value of ROUT, where there is one. -/
  | consumeR
  /-- The host asserts reset in the present slot, over the word on the port if there is one (R90, R99; log
  entry 6). -/
  | assertReset
  deriving DecidableEq, Repr

/-- Reset is asserted over what stands on the port. -/
def resetOver : List HostInput → List HostInput
  | .command w :: rest => .reset (some w) :: rest
  | .reset w :: rest => .reset w :: rest
  | [] => [.reset none]

/-- One move. A held command changes nothing; otherwise it "executes exactly as specified" (R116). -/
def bufferedStep (depth : Nat) (m : BufferedMove) (b : Buffered) : Host.Outcome Buffered Fault Refusal :=
  match m with
  | .consumeW => .next { b with wTaken := b.wTaken + min 1 b.wBuffer.length }
  | .consumeR => .next { b with rTaken := b.rTaken + min 1 b.rBuffer.length }
  | .assertReset => .next { b with core := { b.core with inputs := resetOver b.core.inputs } }
  | .advance =>
    if b.held depth then .next b
    else match step b.core with
      | .next t => .next { b with core := t }
      | .fault r => .fault r
      | .refused r => .refused r

/-- A sequence of moves, stopping at the first refusal. -/
def bufferedRun (depth : Nat) : List BufferedMove → Buffered → Host.Outcome Buffered Fault Refusal
  | [], b => .next b
  | m :: ms, b =>
    match bufferedStep depth m b with
    | .next b' => bufferedRun depth ms b'
    | .fault r => .fault r
    | .refused r => .refused r

/-- The implementation of depth `OUT_DEPTH`, the open parameter (R7, R116). -/
def implementationStep : BufferedMove → Buffered → Host.Outcome Buffered Fault Refusal :=
  bufferedStep Config.outDepth

end Sys2Proof.Machine
end

