-- ==== Sys2Proof/Machine/Driver.lean ====
section
/-! DEFINITION. Machine/Driver.lean: the host's encode and decode procedures (43_host_sequences.md). They are
host software, outside the core (00_scope.md R5); they are here so that the contract can be stated. -/

namespace Sys2Proof.Machine

/-- The machine after the host has presented the words, in order, and the core has taken each (R44). -/
def driveWords (ws : List Command) (s : State) : Host.Outcome State Fault Refusal :=
  Host.Core.run Sys2Proof.core ws.length (s.presenting ws)

/-- The machine after the host has presented the commands' words and the core has taken each. -/
def drive (is : List Instr) (s : State) : Host.Outcome State Fault Refusal :=
  driveWords (is.map encode) s

namespace Driver

/-- The host's domain of numbers, [1,300] (R7, R86). -/
def inDomain (x : Int) : Bool := 1 ≤ x && x ≤ 300

/-- Puts a number into a strictly ascending list, once (R85: set semantics). -/
def insertNumber (x : Int) : List Int → List Int
  | [] => [x]
  | y :: ys => if x < y then x :: y :: ys else if x = y then y :: ys else y :: insertNumber x ys

/-- Canonicalisation: deduplicate and sort ascending (R85). -/
def canonicalise : List Int → List Int
  | [] => []
  | x :: xs => insertNumber x (canonicalise xs)

/-- The numbers the host encodes: canonical, without those outside the domain (R84, R86). -/
def encodable (ns : List Int) : List Int := (canonicalise ns).filter inDomain

/-- The numbers the host reports as range violations, in the order it meets them (R84, R86). -/
def violations (ns : List Int) : List Int := (canonicalise ns).filter (fun x => !inDomain x)

/-- `WPUSH (x - 1)`, the host's value offset (R84). -/
def pushOf (x : Int) : Instr := .wpush (BitVec.ofInt 9 (x - 1))

/-- The commands of `encode(numbers)` (R84). -/
def encodeCommands (ns : List Int) : List Instr := (encodable ns).map pushOf ++ [.wfin]

/-- The commands of `decode(bytes)` (R88). -/
def decodeCommands (bs : List Byte) : List Instr := bs.map .rfeed ++ [.rend]

/-- `encode(numbers)` (R84): the bytes WOUT receives from the first WPUSH through WFIN. -/
def hostEncode (s : State) (ns : List Int) : Option (List Byte) :=
  match drive (encodeCommands ns) s with
  | .next t => some (t.wOut.drop s.wOut.length)
  | _ => none

/-- `decode(bytes)` (R88): the values ROUT receives from the first RFEED through REND. -/
def hostDecode (s : State) (bs : List Byte) : Option (List Int) :=
  match drive (decodeCommands bs) s with
  | .next t => some ((t.rOut.drop s.rOut.length).map (fun v => (v.toNat : Int)))
  | _ => none

end Driver

end Sys2Proof.Machine
end

