-- ==== Sys2Proof/Machine/Framing.lean ====
section
/-! DEFINITION. Machine/Framing.lean: the host's stream framing duty (43_host_sequences.md R92) as a check on
the commands the host sends. "The core does not enforce any of this": no command uses it. -/

namespace Sys2Proof.Machine.Framing

/-- What a command is to the streams of one channel. -/
inductive Part where
  /-- It carries an element of a stream. -/
  | element
  /-- It ends a stream (R11). -/
  | finish
  /-- It discards what a stream has left pending, and emits nothing (R65). -/
  | abandon
  /-- It is none of the channel's commands. -/
  | other
  deriving DecidableEq, Repr

/-- The writer channel: a stream is fields, ended by WFIN (R11, R92). -/
def writerPart : Instr → Part
  | .nop => .other
  | .wpush _ => .element
  | .wfin => .finish
  | .wabort => .abandon
  | .rfeed _ => .other
  | .rend => .other

/-- The reader channel: a stream is bytes, ended by REND (R11, R92). -/
def readerPart : Instr → Part
  | .nop => .other
  | .wpush _ => .other
  | .wfin => .other
  | .wabort => .other
  | .rfeed _ => .element
  | .rend => .finish

/-- Elements of an unended stream may be pending on the channel after the commands, `isOpen` before them:
the commands that leave a channel clean are those of R28. -/
def leavesOpen (part : Instr → Part) (isOpen : Bool) : List Instr → Bool
  | [] => isOpen
  | i :: is =>
    match part i with
    | .element => leavesOpen part true is
    | .finish => leavesOpen part false is
    | .abandon => leavesOpen part false is
    | .other => leavesOpen part isOpen is

/-- After the commands no stream is open on either channel: each was ended or, on the writer, discarded. -/
def leavesNoStreamOpen (is : List Instr) : Bool :=
  !leavesOpen writerPart false is && !leavesOpen readerPart false is

/-- A command the host sends for one of its logical streams. The core sees the command only; the number
names the stream among those of the command's channel (log entry 13). -/
structure Sent where
  stream : Nat
  command : Instr
  deriving DecidableEq, Repr

/-- A command of stream `n` may come next on a channel: `n` is the stream in progress, or none is and `n`
has not ended before. -/
def mayContinue (ended : List Nat) (current : Option Nat) (n : Nat) : Bool :=
  match current with
  | none => !ended.contains n
  | some m => m == n

/-- The duty of R92 on one channel: every stream is ended by its finishing command, WFIN or REND, a stream
starts only where the last one has ended, and no two streams are mixed. A WABORT over a stream in progress
breaks it; one between streams finds a clean writer and is allowed (R84). -/
def dutyKept (part : Instr → Part) (ended : List Nat) (current : Option Nat) : List Sent → Bool
  | [] => current.isNone
  | x :: rest =>
    match part x.command with
    | .element => mayContinue ended current x.stream && dutyKept part ended (some x.stream) rest
    | .finish => mayContinue ended current x.stream && dutyKept part (x.stream :: ended) none rest
    | .abandon => current.isNone && dutyKept part ended none rest
    | .other => dutyKept part ended current rest

/-- The stream framing duty of R92, on both channels, for a host that starts at clean channels. -/
def framingDuty (sent : List Sent) : Bool :=
  dutyKept writerPart [] none sent && dutyKept readerPart [] none sent

/-- The streams of one channel that are ended, in the order in which they end. -/
def finished (part : Instr → Part) (sent : List Sent) : List Nat :=
  (sent.filter (fun x => part x.command == .finish)).map Sent.stream

/-- The field a command pushes, if any. -/
def pushedField? : Instr → Option Field
  | .nop => none
  | .wpush v => some v
  | .wfin => none
  | .wabort => none
  | .rfeed _ => none
  | .rend => none

/-- The byte a command feeds, if any. -/
def fedByte? : Instr → Option Byte
  | .nop => none
  | .wpush _ => none
  | .wfin => none
  | .wabort => none
  | .rfeed b => some b
  | .rend => none

/-- The commands sent for stream `n`. -/
def commandsOf (n : Nat) (sent : List Sent) : List Instr :=
  (sent.filter (fun x => x.stream == n)).map Sent.command

/-- The fields sent for writer stream `n`, in order. -/
def fieldsSent (n : Nat) (sent : List Sent) : List Field := (commandsOf n sent).filterMap pushedField?

/-- The bytes sent for reader stream `n`, in order. -/
def bytesSent (n : Nat) (sent : List Sent) : List Byte := (commandsOf n sent).filterMap fedByte?

end Sys2Proof.Machine.Framing
end

