-- ==== Sys2Proof/Machine/BitStream.lean ====
section
/-! DEFINITION. Machine/BitStream.lean: the logical bit-stream of 20_memory.md: fields and bytes as bits, the
framing formulas and the padding. It is what a writer stream and a reader stream mean; no command uses it. -/

namespace Sys2Proof.Machine.BitStream

/-- The bits of a field or a byte in stream order, most-significant bit first (R8, R32, R33). -/
def bitsOf {k : Nat} (x : BitVec k) : List Bool :=
  (List.range k).map (fun t => x.getLsbD (k - 1 - t))

/-- `s[k]` as a number, 0 past the end of the stream. -/
def bitAt (s : List Bool) (k : Nat) : Nat := (s.getD k false).toNat

/-- `field_i = sum_{t=0..8} s[9i+t] << (8-t)` (R35). -/
def fieldAt (s : List Bool) (i : Nat) : Field :=
  BitVec.ofNat 9 ((List.range 9).map (fun t => bitAt s (9 * i + t) * 2 ^ (8 - t))).sum

/-- `byte_j = sum_{u=0..7} s[8j+u] << (7-u)` (R35). -/
def byteAt (s : List Bool) (j : Nat) : Byte :=
  BitVec.ofNat 8 ((List.range 8).map (fun u => bitAt s (8 * j + u) * 2 ^ (7 - u))).sum

/-- The number of padding bits that follow `k` stream bits up to the next byte boundary: `p` of R31 and R37
for `k = 9n`. -/
def padLength (k : Nat) : Nat := (8 - k % 8) % 8

/-- Bits followed by zero bits up to the next byte boundary (R31, R36). -/
def padded (s : List Bool) : List Bool := s ++ List.replicate (padLength s.length) false

/-- The bits of the fields in push order (R31). -/
def fieldBits (fs : List Field) : List Bool := fs.flatMap bitsOf

/-- The bits of the bytes in feeding order (R34). -/
def byteBits (bs : List Byte) : List Bool := bs.flatMap bitsOf

/-- A bit-stream cut into whole bytes (R31, R33); bits short of a byte are left out. -/
def bytesOf (s : List Bool) : List Byte := (List.range (s.length / 8)).map (byteAt s)

/-- The whole 9-bit fields of a bit-stream (R38); bits short of a field are left out. -/
def fieldsOf (s : List Bool) : List Field := (List.range (s.length / 9)).map (fieldAt s)

/-- The encoded stream of R31: the bytes of the fields' bits and the padding. -/
def encodedStream (fs : List Field) : List Byte := bytesOf (padded (fieldBits fs))

end Sys2Proof.Machine.BitStream
end

