-- ==== Sys2Proof/Safety.lean ====
section
/-! DEFINITION. Safety.lean: the invariant of the state, the clean channels, what the host observes and
which channel a word addresses, in the terms the claims use. -/

namespace Sys2Proof.Machine

/-- The writer invariant (10_state.md R23): W_CNT ≤ 7 and W_ACC < 2^W_CNT. -/
abbrev State.WriterInv (s : State) : Prop := s.wCnt.toNat ≤ 7 ∧ s.wAcc.toNat < 2 ^ s.wCnt.toNat

/-- The reader invariant (10_state.md R24): R_CNT ≤ 8 and R_ACC < 2^R_CNT. -/
abbrev State.ReaderInv (s : State) : Prop := s.rCnt.toNat ≤ 8 ∧ s.rAcc.toNat < 2 ^ s.rCnt.toNat

/-- Every value on ROUT lies in 1..512 (41_reader.md R73). -/
abbrev State.ValuesInRange (s : State) : Prop := ∀ v ∈ s.rOut, 1 ≤ v.toNat ∧ v.toNat ≤ 512

/-- What holds of every state after a reset. -/
abbrev State.Inv (s : State) : Prop :=
  s.hasBeenReset = true ∧ s.WriterInv ∧ s.ReaderInv ∧ s.ValuesInRange

/-- The writer is clean (R28). -/
abbrev State.WriterClean (s : State) : Prop := s.wCnt = 0#5 ∧ s.wAcc = 0#16

/-- The reader is clean (R28). -/
abbrev State.ReaderClean (s : State) : Prop := s.rCnt = 0#5 ∧ s.rAcc = 0#16

/-- The observation of a run: WOUT, ROUT and STATUS (R12, R91). -/
def State.observe (s : State) : List Byte × List Value × StatusWord := (s.wOut, s.rOut, s.status)

/-- The writer's pending bits in stream order: the low W_CNT bits of W_ACC, oldest first (R15). -/
def State.writerPending (s : State) : List Bool :=
  (BitStream.bitsOf s.wAcc).drop (16 - s.wCnt.toNat)

/-- The reader's pending bits in stream order: the low R_CNT bits of R_ACC, oldest first (R17). -/
def State.readerPending (s : State) : List Bool :=
  (BitStream.bitsOf s.rAcc).drop (16 - s.rCnt.toNat)

/-- The two states differ at most in accumulator bits at and above the counts (R15, R17; decision D6), and
the counts are in their stable ranges (R16, R18). -/
structure SameButStale (s t : State) : Prop where
  wCnt_le : s.wCnt.toNat ≤ 7
  rCnt_le : s.rCnt.toNat ≤ 8
  rest_eq : t = { s with wAcc := t.wAcc, rAcc := t.rAcc }
  writerPending_eq : t.writerPending = s.writerPending
  readerPending_eq : t.readerPending = s.readerPending

/-- The channel a command addresses (R48). -/
inductive Channel where
  | none
  | writer
  | reader
  deriving DecidableEq, Repr

/-- The channel column of the opcode map (R48). -/
def Instr.channel : Instr → Channel
  | .nop => .none
  | .wpush _ => .writer
  | .wfin => .writer
  | .wabort => .writer
  | .rfeed _ => .reader
  | .rend => .reader

/-- The channel a word addresses; an illegal word addresses none (R26, R48). -/
def wordChannel (w : Command) : Channel :=
  match decode w with
  | .ok i => Instr.channel i
  | .error _ => .none

end Sys2Proof.Machine
end

