-- ==== Sys2Proof/Certificates/Slice0/Obligations.lean ====
section
/-! DEFINITION. Obligations.lean: the statements about the machine, from the spec's numbered rules. -/

open Sys2Proof Sys2Proof.Machine Sys2Proof.Machine.BitStream Sys2Proof.Machine.Driver
open Sys2Proof.Machine.Assembler Sys2Proof.Machine.Framing

-- Encoding (30_encoding.md).

/-- R55: the encoding examples, each way: the words written out, what they decode to, and PUSHN 300. -/
def Obligations.ExampleWordsEncodeAndDecode : Prop :=
  (∀ p ∈ ([(.nop, 0x000#12), (.wpush 0#9, 0x200#12), (.wpush 0xBB#9, 0x2BB#12), (.wpush 299#9, 0x32B#12),
      (.wpush 511#9, 0x3FF#12), (.wfin, 0x400#12), (.wabort, 0x600#12), (.rfeed 0x00#8, 0x800#12),
      (.rfeed 0xB0#8, 0x8B0#12), (.rfeed 0xFF#8, 0x8FF#12), (.rend, 0xA00#12)] : List (Instr × Command)),
    encode p.1 = p.2 ∧ decode p.2 = .ok p.1)
  ∧ assembleStmt (.pushn 300) = .ok [.wpush 299#9]

/-- R48: the legal words of each command, as the opcode map gives them. -/
def Obligations.LegalWordsOfEachCommand : Prop :=
  ∀ w : Command,
    (decode w = .ok .nop ↔ w.toNat = 0x000)
    ∧ (∀ v : Field, decode w = .ok (.wpush v) ↔ w.toNat = 0x200 + v.toNat)
    ∧ (decode w = .ok .wfin ↔ w.toNat = 0x400)
    ∧ (decode w = .ok .wabort ↔ w.toNat = 0x600)
    ∧ (∀ b : Byte, decode w = .ok (.rfeed b) ↔ w.toNat = 0x800 + b.toNat)
    ∧ (decode w = .ok .rend ↔ w.toNat = 0xA00)

/-- R48 in match/mask form against the decoder of R52: a word decodes to a command exactly when one row holds
it, which is the row of that command's mnemonic, and an illegal word lies in no row. -/
def Obligations.DecoderAgreesWithOpcodeTable : Prop :=
  ∀ w : Command,
    (∀ i, decode w = .ok i →
      (opcodeTable.filter (fun r => r.matchesWord w)).map OpcodeRow.mnemonic = [i.mnemonic])
    ∧ (∀ e, decode w = .error e → opcodeTable.filter (fun r => r.matchesWord w) = [])

/-- R50: which words are illegal, by condition and by range, that such a word sets ILL and changes nothing
else, and how many there are. -/
def Obligations.IllegalWordsAreExactlyThese : Prop :=
  (∀ w : Command, (∃ e, decode w = .error e) ↔
    (w.op = 0b110#3 ∨ w.op = 0b111#3
      ∨ ((w.op = 0b000#3 ∨ w.op = 0b010#3 ∨ w.op = 0b011#3 ∨ w.op = 0b101#3) ∧ w.opnd ≠ 0#9)
      ∨ (w.op = 0b100#3 ∧ w.opnd.getLsbD 8 = true)))
  ∧ (∀ w : Command, (∃ e, decode w = .error e) ↔
    (0x001 ≤ w.toNat ∧ w.toNat ≤ 0x1FF ∨ 0x401 ≤ w.toNat ∧ w.toNat ≤ 0x5FF
      ∨ 0x601 ≤ w.toNat ∧ w.toNat ≤ 0x7FF ∨ 0x900 ≤ w.toNat ∧ w.toNat ≤ 0x9FF
      ∨ 0xA01 ≤ w.toNat ∧ w.toNat ≤ 0xBFF ∨ 0xC00 ≤ w.toNat))
  ∧ (∀ (w : Command) (e : DecodeReject) (s : State), decode w = .error e →
      execWord w s = .next { s with ill := true })
  ∧ ((List.range 4096).filter (fun k => (decodeTableWord 16 k).isNone)).length = 3324

/-- Decode and encode agree: every command at every operand. -/
def Obligations.DecodeOfEncodeIsTheCommand : Prop :=
  ∀ i : Instr, decode (encode i) = .ok i

/-- Every legal word is the word of the command it decodes to: decoding drops no bit. -/
def Obligations.EncodeOfDecodeIsTheWord : Prop :=
  ∀ (w : Command) (i : Instr), decode w = .ok i → encode i = w

/-- R53: the assembler reads back the text of every command, alone and before a comment. The blanks around the
statement and the hexadecimal form of `sourceText` are the model's choice (DESIGN CHOICE, log entry 8): R53 gives
the mnemonics, the literal forms and the comment only. -/
def Obligations.AssemblerReadsBackEveryCommand : Prop :=
  ∀ (i : Instr) (comment : List Char),
    assembleLine (sourceText i) = .ok [i]
    ∧ assembleLine (' ' :: sourceText i ++ ' ' :: ';' :: comment) = .ok [i]

/-- R54: the exact expansions of the four pseudo-instructions, and the operands that are refused. -/
def Obligations.PseudoInstructionExpansions : Prop :=
  (∀ n : Nat, 1 ≤ n → n ≤ 512 → assembleStmt (.pushn n) = assembleStmt (.wpush (n - 1)))
  ∧ (∀ n : Nat, n = 0 ∨ 512 < n → assembleStmt (.pushn n) = .error .badOperand)
  ∧ assembleStmt .rabort = .ok [.rend]
  ∧ (∀ fs : List Field, assembleStmt (.wstream (fs.map BitVec.toNat)) = .ok (fs.map .wpush ++ [.wfin]))
  ∧ (∀ bs : List Byte, assembleStmt (.rstream (bs.map BitVec.toNat)) = .ok (bs.map .rfeed ++ [.rend]))
  ∧ (∀ v : Nat, 511 < v → assembleStmt (.wpush v) = .error .badOperand)
  ∧ (∀ b : Nat, 255 < b → assembleStmt (.rfeed b) = .error .badOperand)

-- Reset, STATUS, ILL and the inputs (10_state.md, 42_control.md, 70_reset_and_hazards.md).

/-- R27: what every register and STATUS hold after reset, that the reset input leaves the streams unchanged,
and that they are empty at the start of a run. -/
def Obligations.ResetValues : Prop :=
  (∀ s : State, s.applyReset.wAcc = 0#16 ∧ s.applyReset.wCnt = 0#5 ∧ s.applyReset.rAcc = 0#16
    ∧ s.applyReset.rCnt = 0#5 ∧ s.applyReset.ill = false ∧ s.applyReset.status = 0x0000#16
    ∧ s.applyReset.wOut = s.wOut ∧ s.applyReset.rOut = s.rOut)
  ∧ State.reset.wAcc = 0#16 ∧ State.reset.wCnt = 0#5 ∧ State.reset.rAcc = 0#16 ∧ State.reset.rCnt = 0#5
  ∧ State.reset.ill = false ∧ State.reset.status = 0x0000#16
  ∧ State.reset.wOut = [] ∧ State.reset.rOut = []

/-- R109, R110, R99: a step in which reset is asserted sets the four registers and ILL to 0 whatever they
were and whatever word is on the port, keeps both streams, and needs no earlier reset. -/
def Obligations.ResetInputClearsRegistersOnly : Prop :=
  ∀ (s : State) (w : Option Command) (rest : List HostInput), s.inputs = .reset w :: rest →
    step s = .next { s with wAcc := 0#16, wCnt := 0#5, rAcc := 0#16, rCnt := 0#5, ill := false,
                            inputs := rest, hasBeenReset := true }

/-- R111, R112 (the refusal is the treatment of 93_implementation_defined.md, the field that remembers the reset
is the model's, log entry 3): from the unspecified state before the first reset, a command is refused, and one reset with
nothing else initialised gives the reset state. -/
def Obligations.PowerUpNeedsOneReset : Prop :=
  (∀ (s : State) (w : Command) (rest : List HostInput), s.hasBeenReset = false →
    s.inputs = .command w :: rest → step s = .refused .commandBeforeReset)
  ∧ (∀ (w : Option Command) (rest : List HostInput),
    step { State.powerUp with inputs := .reset w :: rest } = .next { State.reset with inputs := rest })

/-- R19 and R81: every field of STATUS, for counts in their stable ranges. -/
def Obligations.StatusFields : Prop :=
  ∀ s : State, s.wCnt.toNat ≤ 7 → s.rCnt.toNat ≤ 8 →
    (s.status.extractLsb' 0 3).toNat = s.wCnt.toNat
    ∧ s.status.getLsbD 3 = false
    ∧ (s.status.extractLsb' 4 4).toNat = s.rCnt.toNat
    ∧ s.status.getLsbD 8 = s.ill
    ∧ s.status.extractLsb' 9 7 = 0#7
    ∧ s.status.toNat = s.wCnt.toNat + 16 * s.rCnt.toNat + 256 * s.ill.toNat

/-- R81: a STATUS read while a command runs returns the value before or after it (which one is left free, log
entry 10). -/
def Obligations.ConcurrentStatusIsBeforeOrAfter : Prop :=
  ∀ (k : Nat) (s t : State), step s = .next t →
    concurrentStatus k s t = s.status ∨ concurrentStatus k s t = t.status

/-- R20 and R101: ILL is set by an illegal word and by nothing else, cleared by reset and by nothing else,
and a legal command neither reads nor writes it. -/
def Obligations.IllIsStickyAndNeverRead : Prop :=
  (∀ (s t : State) (w : Command) (e : DecodeReject) (rest : List HostInput), s.hasBeenReset = true →
    s.inputs = .command w :: rest → decode w = .error e → step s = .next t → t.ill = true)
  ∧ (∀ s t : State, step s = .next t → s.ill = false → t.ill = true →
    ∃ w e rest, s.inputs = .command w :: rest ∧ decode w = .error e)
  ∧ (∀ s t : State, step s = .next t → s.ill = true → t.ill = false →
    ∃ w rest, s.inputs = .reset w :: rest)
  ∧ (∀ (i : Instr) (s : State), ∃ t, exec i s = .next t ∧ t.ill = s.ill
    ∧ ∀ b : Bool, exec i { s with ill := b } = .next { t with ill := b })

/-- R80, R96, R99, R100: a step on an illegal word sets ILL and changes nothing else. -/
def Obligations.IllegalWordSetsIllOnly : Prop :=
  ∀ (s : State) (w : Command) (e : DecodeReject) (rest : List HostInput), s.hasBeenReset = true →
    s.inputs = .command w :: rest → decode w = .error e →
    step s = .next { s with ill := true, inputs := rest }

/-- A step runs the decoded command: the word on the port is taken off it and its command is executed. -/
def Obligations.StepRunsTheDecodedCommand : Prop :=
  ∀ (s : State) (w : Command) (i : Instr) (rest : List HostInput), s.hasBeenReset = true →
    s.inputs = .command w :: rest → decode w = .ok i → step s = exec i { s with inputs := rest }

/-- R44: the core takes each input once, in presentation order. The idle step, where nothing is presented,
is the model's choice (log entry 4). -/
def Obligations.InputsAreTakenOnceInOrder : Prop :=
  (∀ s t : State, step s = .next t → t.inputs = s.inputs.tail)
  ∧ (∀ s : State, s.inputs = [] → step s = .next s)

/-- R90: after a reset the core never refuses: every step gives a next state, which again is after a reset. -/
def Obligations.StepAlwaysCompletesAfterReset : Prop :=
  ∀ s : State, s.hasBeenReset = true → ∃ t, step s = .next t ∧ t.hasBeenReset = true

/-- R22: the streams are append-only: a step never reads, reorders or removes an element. -/
def Obligations.StreamsOnlyGrow : Prop :=
  ∀ s t : State, step s = .next t → s.wOut <+: t.wOut ∧ s.rOut <+: t.rOut

-- The invariant (10_state.md R23, R24; 41_reader.md R73).

/-- The invariant holds at reset. -/
def Obligations.InvariantHoldsAtReset : Prop := State.reset.Inv

/-- R23, R24 and R73: every step keeps the invariant, from every state that meets it. -/
def Obligations.EveryStepKeepsTheInvariant : Prop :=
  ∀ s t : State, s.Inv → step s = .next t → t.Inv

/-- The reset input establishes the invariant whatever the registers held. -/
def Obligations.ResetEstablishesTheInvariant : Prop :=
  ∀ (s t : State) (w : Option Command) (rest : List HostInput), s.ValuesInRange →
    s.inputs = .reset w :: rest → step s = .next t → t.Inv

-- The commands (40_writer.md, 41_reader.md, 42_control.md).

/-- R79: NOP is the single word 0x000 and changes nothing; a word with OP = 000 and a non-zero operand bit is
illegal. -/
def Obligations.NopChangesNothing : Prop :=
  (∀ w : Command, decode w = .ok .nop ↔ w = 0x000#12)
  ∧ (∀ w : Command, w.op = 0b000#3 → w.opnd ≠ 0#9 → ∃ e, decode w = .error e)
  ∧ ∀ s : State, exec .nop s = .next s

/-- R62: WPUSH v is the word 0x200 + v and packs the field: with `n` = W_CNT + 9 valid bits, which read as
the number `p`, it appends the `n / 8` highest whole bytes of `p`, highest first, and keeps the low `n mod 8`
bits and their count. Nothing else changes. -/
def Obligations.WpushPacksTheField : Prop :=
  ∀ (v : Field) (s : State), s.WriterInv →
    let n := s.wCnt.toNat + 9
    let p := s.wAcc.toNat * 512 + v.toNat
    (encode (.wpush v)).toNat = 0x200 + v.toNat
    ∧ exec (.wpush v) s = .next { s with
        wAcc := BitVec.ofNat 16 (p % 2 ^ (n % 8))
        wCnt := BitVec.ofNat 5 (n % 8)
        wOut := s.wOut ++ (List.range (n / 8)).map (fun j => BitVec.ofNat 8 (p / 2 ^ (n - 8 * (j + 1)) % 256)) }

/-- R63: how many bytes WPUSH emits, and which two they are when 7 bits were pending. -/
def Obligations.WpushEmitsOneOrTwoBytes : Prop :=
  ∀ (v : Field) (s : State), s.WriterInv →
    (s.wCnt.toNat ≤ 6 → ∃ t b, exec (.wpush v) s = .next t ∧ t.wOut = s.wOut ++ [b]
      ∧ t.wCnt.toNat = s.wCnt.toNat + 1)
    ∧ (s.wCnt.toNat = 7 → ∃ t, exec (.wpush v) s = .next t
      ∧ t.wOut = s.wOut ++ [s.wAcc.setWidth 7 ++ v.extractLsb' 8 1, v.extractLsb' 0 8]
      ∧ t.wCnt = 0#5 ∧ t.wAcc = 0#16)

/-- R64: WFIN is the word 0x400; it appends the pending bits over zero padding if there are any, and leaves
the writer clean. Nothing else changes. -/
def Obligations.WfinPadsAndClears : Prop :=
  encode .wfin = 0x400#12
  ∧ ∀ s : State, s.WriterInv →
    exec .wfin s = .next { s with
      wAcc := 0#16
      wCnt := 0#5
      wOut := s.wOut ++ if s.wCnt = 0#5 then [] else [BitVec.ofNat 8 (s.wAcc.toNat * 2 ^ (8 - s.wCnt.toNat))] }

/-- R65: WABORT is the word 0x600; it clears the writer and emits nothing. Nothing else changes. -/
def Obligations.WabortDiscardsPendingBits : Prop :=
  encode .wabort = 0x600#12
  ∧ ∀ s : State, exec .wabort s = .next { s with wAcc := 0#16, wCnt := 0#5 }

/-- R71: RFEED b is the word 0x800 + b and extracts the field: with `n` = R_CNT + 8 valid bits, which read as
the number `p`, it appends the highest whole field of `p` plus 1 if `n` ≥ 9, and keeps the low `n mod 9` bits
and their count. Nothing else changes. -/
def Obligations.RfeedExtractsTheField : Prop :=
  ∀ (b : Byte) (s : State), s.ReaderInv →
    let n := s.rCnt.toNat + 8
    let p := s.rAcc.toNat * 256 + b.toNat
    (encode (.rfeed b)).toNat = 0x800 + b.toNat
    ∧ exec (.rfeed b) s = .next { s with
        rAcc := BitVec.ofNat 16 (p % 2 ^ (n % 9))
        rCnt := BitVec.ofNat 5 (n % 9)
        rOut := s.rOut ++ if n < 9 then [] else [BitVec.ofNat 10 (p / 2 ^ (n - 9) % 512 + 1)] }

/-- R72: how many values RFEED emits. -/
def Obligations.RfeedEmitsAtMostOneValue : Prop :=
  ∀ (b : Byte) (s : State), s.ReaderInv →
    (s.rCnt.toNat = 0 → ∃ t, exec (.rfeed b) s = .next t ∧ t.rOut = s.rOut ∧ t.rCnt.toNat = 8)
    ∧ (1 ≤ s.rCnt.toNat → ∃ t v, exec (.rfeed b) s = .next t ∧ t.rOut = s.rOut ++ [v]
      ∧ t.rCnt.toNat = s.rCnt.toNat - 1)

/-- R73: every value RFEED appends is a field plus 1, in 1..512, with no check against the host's domain: in
every state, and every value of the range does come out. -/
def Obligations.ReaderValuesAreFieldPlusOne : Prop :=
  (∀ (b : Byte) (s : State), ∃ t vs, exec (.rfeed b) s = .next t ∧ t.rOut = s.rOut ++ vs
    ∧ ∀ v ∈ vs, ∃ f : Field, v.toNat = f.toNat + 1 ∧ 1 ≤ v.toNat ∧ v.toNat ≤ 512)
  ∧ (∀ f : Field, ∃ (b : Byte) (s t : State), s.ReaderInv ∧ exec (.rfeed b) s = .next t
    ∧ t.rOut = s.rOut ++ [BitVec.ofNat 10 (f.toNat + 1)])

/-- R74: REND is the word 0xA00; it discards the trailing bits and emits nothing. Nothing else changes. RABORT
is the same command. -/
def Obligations.RendDiscardsTrailingBits : Prop :=
  encode .rend = 0xA00#12
  ∧ assembleStmt .rabort = .ok [.rend]
  ∧ ∀ s : State, exec .rend s = .next { s with rAcc := 0#16, rCnt := 0#5 }

/-- R61 and R26: a writer command reads and writes only W_ACC, W_CNT and WOUT: what it does is fixed by W_ACC
and W_CNT, and every other part of the state is unchanged. -/
def Obligations.WriterCommandsTouchOnlyTheWriter : Prop :=
  ∀ i : Instr, i = .wfin ∨ i = .wabort ∨ (∃ v, i = .wpush v) →
    ∀ (a : Acc) (n : Count), ∃ (a' : Acc) (n' : Count) (out : List Byte),
      ∀ s : State, s.wAcc = a → s.wCnt = n →
        exec i s = .next { s with wAcc := a', wCnt := n', wOut := s.wOut ++ out }

/-- R70 and R26: a reader command reads and writes only R_ACC, R_CNT and ROUT. -/
def Obligations.ReaderCommandsTouchOnlyTheReader : Prop :=
  ∀ i : Instr, i = .rend ∨ (∃ b, i = .rfeed b) →
    ∀ (a : Acc) (n : Count), ∃ (a' : Acc) (n' : Count) (out : List Value),
      ∀ s : State, s.rAcc = a → s.rCnt = n →
        exec i s = .next { s with rAcc := a', rCnt := n', rOut := s.rOut ++ out }

/-- R26: the two channels may be interleaved word by word without either affecting the other: over any words,
legal or not, the writer ends as after the writer's words alone, the reader as after the reader's alone. -/
def Obligations.InterleavedChannelsDoNotInterfere : Prop :=
  ∀ (ws : List Command) (s : State), s.hasBeenReset = true →
    ∃ t tw tr : State, driveWords ws s = .next t
      ∧ driveWords (ws.filter (fun w => wordChannel w = .writer)) s = .next tw
      ∧ driveWords (ws.filter (fun w => wordChannel w = .reader)) s = .next tr
      ∧ t = { s with
          wAcc := tw.wAcc, wCnt := tw.wCnt, wOut := tw.wOut
          rAcc := tr.rAcc, rCnt := tr.rCnt, rOut := tr.rOut
          ill := s.ill || ws.any (fun w => !w.wellFormed) }

/-- R28: what leaves a channel clean. -/
def Obligations.WhatLeavesAChannelClean : Prop :=
  State.reset.WriterClean ∧ State.reset.ReaderClean
  ∧ (∀ s : State, s.applyReset.WriterClean ∧ s.applyReset.ReaderClean)
  ∧ (∀ s : State, ∃ t, exec .wfin s = .next t ∧ t.WriterClean)
  ∧ (∀ s : State, ∃ t, exec .wabort s = .next t ∧ t.WriterClean)
  ∧ (∀ s : State, ∃ t, exec .rend s = .next t ∧ t.ReaderClean)

/-- R64: "WFIN on a clean writer is a no-op", so a second WFIN changes nothing. R41 grants that it emits
nothing; R41's words that no command is idempotent are not followed (DEDUCED, log entry 7). -/
def Obligations.RepeatedWfinEmitsNothing : Prop :=
  ∀ s t : State, exec .wfin s = .next t → exec .wfin t = .next t

/-- R15, R17 and decision D6: accumulator bits at and above the counts are unobservable: two states that
differ in them only stay so, step by step, and show the host the same. -/
def Obligations.StaleAccumulatorBitsAreUnobservable : Prop :=
  ∀ s s' : State, s.hasBeenReset = true → SameButStale s s' →
    ∃ t t' : State, step s = .next t ∧ step s' = .next t' ∧ SameButStale t t' ∧ t.observe = t'.observe

-- The streams (20_memory.md, 40_writer.md, 41_reader.md).

/-- R32, and the formula of R35: bit 9i+t of the logical bit-stream is bit 8-t of field i, and the framing
formula reads the field back. -/
def Obligations.FieldBitsInStreamOrder : Prop :=
  ∀ (fs : List Field) (i : Nat) (h : i < fs.length),
    (∀ t, t < 9 → (padded (fieldBits fs))[9 * i + t]? = some (fs[i].getLsbD (8 - t)))
    ∧ fieldAt (padded (fieldBits fs)) i = fs[i]

/-- R33 and R35: stream bit 8j+u is bit 7-u of byte j of the encoded stream. -/
def Obligations.ByteBitsInStreamOrder : Prop :=
  ∀ (s : List Bool) (j : Nat) (h : j < (bytesOf s).length), ∀ u, u < 8 →
    s[8 * j + u]? = some ((bytesOf s)[j].getLsbD (7 - u))

/-- R37: the number of padding bits of a writer stream of n fields. -/
def Obligations.PaddingOfAWriterStream : Prop :=
  ∀ fs : List Field,
    padLength (fieldBits fs).length = (8 - (9 * fs.length) % 8) % 8
    ∧ (8 - (9 * fs.length) % 8) % 8 = (8 - fs.length % 8) % 8
    ∧ padLength (fieldBits fs).length ≤ 7
    ∧ (padLength (fieldBits fs).length = 0 ↔ fs.length % 8 = 0)

/-- R29: from a clean writer, k WPUSH commands leave W_CNT = 9k mod 8 and append floor(9k/8) bytes. -/
def Obligations.WriterBitConservation : Prop :=
  ∀ (fs : List Field) (s : State), s.hasBeenReset = true → s.WriterClean →
    ∃ t, drive (fs.map .wpush) s = .next t ∧ t.wCnt.toNat = (9 * fs.length) % 8
      ∧ t.wOut.length = s.wOut.length + 9 * fs.length / 8

/-- R30: from a clean reader, m RFEED commands leave R_CNT = 8m mod 9 and append floor(8m/9) values. -/
def Obligations.ReaderBitConservation : Prop :=
  ∀ (bs : List Byte) (s : State), s.hasBeenReset = true → s.ReaderClean →
    ∃ t, drive (bs.map .rfeed) s = .next t ∧ t.rCnt.toNat = (8 * bs.length) % 9
      ∧ t.rOut.length = s.rOut.length + 8 * bs.length / 9

/-- R66: a writer stream of n fields appends exactly ceil(9n/8) bytes. -/
def Obligations.WriterLengthLaw : Prop :=
  ∀ (fs : List Field) (s : State), s.hasBeenReset = true → s.WriterClean →
    ∃ t, drive (fs.map .wpush ++ [.wfin]) s = .next t
      ∧ t.wOut.length = s.wOut.length + (9 * fs.length + 7) / 8

/-- R67 and R31: a writer stream appends exactly the bytes of the logical bit-stream: the fields MSB-first in
push order, then zero bits to the byte boundary. Nothing else changes. -/
def Obligations.WriterContentLaw : Prop :=
  ∀ (fs : List Field) (s : State), s.hasBeenReset = true → s.WriterClean →
    drive (fs.map .wpush ++ [.wfin]) s = .next { s with wOut := s.wOut ++ encodedStream fs }

/-- R75: a reader stream of m bytes appends exactly floor(8m/9) values. -/
def Obligations.ReaderLengthLaw : Prop :=
  ∀ (bs : List Byte) (s : State), s.hasBeenReset = true → s.ReaderClean →
    ∃ t, drive (bs.map .rfeed ++ [.rend]) s = .next t
      ∧ t.rOut.length = s.rOut.length + 8 * bs.length / 9

/-- R38: a reader stream appends the whole fields of the fed bits, each plus 1, and discards the rest.
Nothing else changes. -/
def Obligations.ReaderFramingLaw : Prop :=
  ∀ (bs : List Byte) (s : State), s.hasBeenReset = true → s.ReaderClean →
    drive (bs.map .rfeed ++ [.rend]) s = .next { s with
      rOut := s.rOut ++ (List.range (8 * bs.length / 9)).map
        (fun k => BitVec.ofNat 10 ((fieldAt (byteBits bs) k).toNat + 1)) }

/-- R92: a writer stream started on an unclean writer has the previous pending bits prepended; one with no WFIN
leaves the bits short of a byte, at most 7, pending, and a WABORT then loses them. -/
def Obligations.WriterPrependsPendingBits : Prop :=
  ∀ (fs : List Field) (s : State), s.hasBeenReset = true → s.WriterInv →
    ∃ t, drive (fs.map .wpush) s = .next t
      ∧ t = { s with wAcc := t.wAcc, wCnt := t.wCnt, wOut := s.wOut ++ bytesOf (s.writerPending ++ fieldBits fs) }
      ∧ t.writerPending = (s.writerPending ++ fieldBits fs).drop
          ((s.writerPending ++ fieldBits fs).length / 8 * 8)
      ∧ t.writerPending.length ≤ 7
      ∧ drive (fs.map .wpush ++ [.wabort]) s = .next { t with wAcc := 0#16, wCnt := 0#5 }
      ∧ drive (fs.map .wpush ++ [.wfin]) s = .next { s with
          wAcc := 0#16, wCnt := 0#5
          wOut := s.wOut ++ bytesOf (padded (s.writerPending ++ fieldBits fs)) }

/-- R92: a reader stream started on an unclean reader has the previous pending bits prepended, and one with no
REND leaves the bits short of a field, at most 8, pending. -/
def Obligations.ReaderPrependsPendingBits : Prop :=
  ∀ (bs : List Byte) (s : State), s.hasBeenReset = true → s.ReaderInv →
    ∃ t, drive (bs.map .rfeed) s = .next t
      ∧ t = { s with
          rAcc := t.rAcc, rCnt := t.rCnt
          rOut := s.rOut ++ (fieldsOf (s.readerPending ++ byteBits bs)).map
            (fun f => BitVec.ofNat 10 (f.toNat + 1)) }
      ∧ t.readerPending = (s.readerPending ++ byteBits bs).drop
          ((s.readerPending ++ byteBits bs).length / 9 * 9)
      ∧ t.readerPending.length ≤ 8

/-- R28: commands that leave no stream open, each ended by WFIN or REND or discarded by WABORT, take clean
channels to clean channels. (R92's duty is stricter: `FramedStreamsComeOutWhole`.) -/
def Obligations.CommandsLeavingNoStreamOpenEndClean : Prop :=
  ∀ (is : List Instr) (s : State), s.hasBeenReset = true → s.WriterClean → s.ReaderClean →
    leavesNoStreamOpen is = true → ∃ t, drive is s = .next t ∧ t.WriterClean ∧ t.ReaderClean

/-- R92: a host that keeps the framing duty gets well-formed results. From clean channels, whatever streams it
sends, interleaved on the two channels in any way, WOUT receives the encoded stream of each writer stream's own
fields, in the order in which the streams end, ROUT the whole fields, each plus 1, of each reader stream's own bytes,
and nothing else changes: both channels are clean again. That a logical stream is a number the host puts beside each
command is the model's choice (log entry 13). -/
def Obligations.FramedStreamsComeOutWhole : Prop :=
  ∀ (sent : List Sent) (s : State), s.hasBeenReset = true → s.WriterClean → s.ReaderClean →
    framingDuty sent = true →
    drive (sent.map Sent.command) s = .next { s with
      wOut := s.wOut ++ (finished writerPart sent).flatMap (fun n => encodedStream (fieldsSent n sent))
      rOut := s.rOut ++ (finished readerPart sent).flatMap (fun n =>
        (fieldsOf (byteBits (bytesSent n sent))).map (fun f => BitVec.ofNat 10 (f.toNat + 1))) }

/-- R39: the bytes of a writer stream, fed to a clean reader that is then ended, give exactly the fields plus
1, in push order. -/
def Obligations.WriterReaderRoundTrip : Prop :=
  ∀ (fs : List Field) (s u : State), s.hasBeenReset = true → s.WriterClean →
    u.hasBeenReset = true → u.ReaderClean →
    ∃ t, drive (fs.map .wpush ++ [.wfin]) s = .next t
      ∧ drive ((t.wOut.drop s.wOut.length).map .rfeed ++ [.rend]) u = .next { u with
          rOut := u.rOut ++ fs.map (fun f => BitVec.ofNat 10 (f.toNat + 1)) }

/-- R76: a writer stream cut short decodes to a shorter sequence: the first floor(8k/9) fields, when only its
first k bytes are fed. -/
def Obligations.TruncatedStreamDecodesToItsStart : Prop :=
  ∀ (fs : List Field) (k : Nat) (u : State), u.hasBeenReset = true → u.ReaderClean →
    k ≤ (encodedStream fs).length →
    drive (((encodedStream fs).take k).map .rfeed ++ [.rend]) u = .next { u with
      rOut := u.rOut ++ (fs.take (8 * k / 9)).map (fun f => BitVec.ofNat 10 (f.toNat + 1)) }

-- The host's procedures (43_host_sequences.md).

/-- R85, R86: canonicalisation gives the distinct numbers in ascending order; the host encodes those in
[1,300] and reports the others (the list form of the report is the model's, log entry 12). -/
def Obligations.HostCanonicalisesAndChecksRange : Prop :=
  ∀ ns : List Int,
    (canonicalise ns).Pairwise (· < ·)
    ∧ (∀ x, x ∈ canonicalise ns ↔ x ∈ ns)
    ∧ (encodable ns).Pairwise (· < ·)
    ∧ (∀ x, x ∈ encodable ns ↔ x ∈ ns ∧ 1 ≤ x ∧ x ≤ 300)
    ∧ (violations ns).Pairwise (· < ·)
    ∧ (∀ x, x ∈ violations ns ↔ x ∈ ns ∧ ¬ (1 ≤ x ∧ x ≤ 300))

/-- R88 with R84: decoding what the host encoded gives the encodable numbers, sorted; for distinct numbers in
[1,300] they are all the numbers. The encoded length is ceil(9k/8) for k encodable numbers. -/
def Obligations.HostDecodeOfEncodeIsSort : Prop :=
  ∀ (ns : List Int) (s u : State), s.hasBeenReset = true → s.WriterClean →
    u.hasBeenReset = true → u.ReaderClean →
    ∃ bytes : List Byte, hostEncode s ns = some bytes
      ∧ bytes.length = (9 * (encodable ns).length + 7) / 8
      ∧ hostDecode u bytes = some (encodable ns)
      ∧ ((∀ x ∈ ns, 1 ≤ x ∧ x ≤ 300) → encodable ns = canonicalise ns)

/-- R89: empty input, input with no number in [1,300], and arbitrary bytes. -/
def Obligations.HostEmptyAndArbitraryInput : Prop :=
  ∀ s : State, s.hasBeenReset = true → s.WriterClean → s.ReaderClean →
    (∀ ns : List Int, (∀ x ∈ ns, ¬ (1 ≤ x ∧ x ≤ 300)) →
      encodeCommands ns = [.wfin] ∧ hostEncode s ns = some [])
    ∧ decodeCommands [] = [.rend] ∧ hostDecode s [] = some []
    ∧ (∀ bs : List Byte, ∃ vs, hostDecode s bs = some vs ∧ vs.length = 8 * bs.length / 9
      ∧ ∀ v ∈ vs, 1 ≤ v ∧ v ≤ 512)

/-- R85: encoding is lossy in order and multiplicity only: two inputs with the same numbers encode alike. -/
def Obligations.HostEncodeDependsOnTheSetOnly : Prop :=
  ∀ (ns ms : List Int) (s : State), (∀ x, x ∈ ns ↔ x ∈ ms) → hostEncode s ns = hostEncode s ms

-- Back-pressure (70_reset_and_hazards.md R116; 20_memory.md R40).

/-- R40: how many elements each command appends to each stream. -/
def Obligations.CommandsAppendTheStatedCounts : Prop :=
  ∀ (i : Instr) (s : State), s.WriterInv → s.ReaderInv →
    ∃ t, exec i s = .next t
      ∧ t.wOut.length = s.wOut.length + Instr.wAppends i s
      ∧ t.rOut.length = s.rOut.length + Instr.rAppends i s

/-- R116: a held command changes nothing however often the core tries, and one that is not held executes exactly
as the architectural step. That a command is held exactly while the elements in the buffer and those it appends
exceed the depth, and never by the buffer of a stream it does not append to, is the model's reading of R116's
"would append to a full buffer" (DEDUCED, log entry 6). -/
def Obligations.HeldExactlyWhileOutputDoesNotFit : Prop :=
  ∀ (depth : Nat) (b : Buffered),
    (b.held depth = true → ∀ k, bufferedRun depth (List.replicate k .advance) b = .next b)
    ∧ (∀ t, b.held depth = false → step b.core = .next t →
        bufferedStep depth .advance b = .next { b with core := t })
    ∧ (∀ (w : Command) (rest : List HostInput) (t : State), b.core.Inv →
        b.wTaken ≤ b.core.wOut.length → b.rTaken ≤ b.core.rOut.length →
        b.core.inputs = .command w :: rest → step b.core = .next t →
        (b.held depth = true ↔
          (t.wOut ≠ b.core.wOut ∧ depth < t.wOut.length - b.wTaken)
          ∨ (t.rOut ≠ b.core.rOut ∧ depth < t.rOut.length - b.rTaken)))

/-- R116: no buffer ever holds more elements than its depth: every move keeps it, and with it the invariant.
The moves are the model's (log entry 6): that the host consumes one element a move, and only one that was emitted,
is a DESIGN CHOICE, and that reset may be asserted over a held word, which is then dropped, is DEDUCED and unsafe. -/
def Obligations.BuffersNeverExceedTheirDepth : Prop :=
  ∀ (depth : Nat) (m : BufferedMove) (b b' : Buffered), b.core.Inv →
    b.wTaken ≤ b.core.wOut.length → b.rTaken ≤ b.core.rOut.length →
    b.wBuffer.length ≤ depth → b.rBuffer.length ≤ depth → bufferedStep depth m b = .next b' →
    b'.core.Inv ∧ b'.wTaken ≤ b'.core.wOut.length ∧ b'.rTaken ≤ b'.core.rOut.length
      ∧ b'.wBuffer.length ≤ depth ∧ b'.rBuffer.length ≤ depth

/-- R116: back-pressure changes only when commands execute, never what they compute or the order of outputs:
whatever the depth and the host's moves, the core is where the architectural machine is after the inputs it
took. In a run without an `assertReset` move these are the first inputs the host presented, in order. In a run
with one, be the word on the port held or not or the port idle, the statement says only that there is such a list of
inputs. The moves are the model's (DEDUCED and DESIGN CHOICE, log entry 6). -/
def Obligations.BackpressureChangesOnlyTiming : Prop :=
  ∀ (depth : Nat) (ms : List BufferedMove) (b b' : Buffered), bufferedRun depth ms b = .next b' →
    ∃ taken : List HostInput,
      Host.Core.run Sys2Proof.core taken.length { b.core with inputs := taken ++ b'.core.inputs } = .next b'.core
      ∧ (BufferedMove.assertReset ∉ ms → b.core.inputs = taken ++ b'.core.inputs)
end

