-- ==== Sys2Proof/Laws/Decode.lean ====
section
/-! SUPPORT. Laws/Decode.lean: the parts of an assembled word. -/

namespace Sys2Proof

theorem getLsbD_commandOf (op : BitVec 3) (opnd : BitVec 9) (i : Nat) :
    (commandOf op opnd).getLsbD i = if i < 9 then opnd.getLsbD i else op.getLsbD (i - 9) :=
  BitVec.getLsbD_append

@[simp] theorem op_commandOf (op : BitVec 3) (opnd : BitVec 9) : (commandOf op opnd).op = op := by
  apply BitVec.eq_of_getLsbD_eq
  intro i hi
  simp [Command.op, getLsbD_commandOf, hi]

@[simp] theorem opnd_commandOf (op : BitVec 3) (opnd : BitVec 9) : (commandOf op opnd).opnd = opnd := by
  apply BitVec.eq_of_getLsbD_eq
  intro i hi
  simp [Command.opnd, getLsbD_commandOf, hi]

/-- A word is its two parts. -/
theorem commandOf_op_opnd (w : Command) : commandOf w.op w.opnd = w := by
  apply BitVec.eq_of_getLsbD_eq
  intro i hi
  rw [getLsbD_commandOf]
  by_cases h : i < 9
  · simp [Command.opnd, h]
  · simp [Command.op, h, show i - 9 < 3 by omega, show 9 + (i - 9) = i by omega]

end Sys2Proof
end

