-- ==== Sys2Proof/Laws/Operands.lean ====
section
/-! SUPPORT. Laws/Operands.lean: masks and slices of an accumulator, bit by bit, and the value offset. -/

namespace Sys2Proof.Machine

@[simp] theorem getLsbD_mask (k i : Nat) : (mask k).getLsbD i = (decide (i < 16) && decide (i < k)) := by
  simp [mask, BitVec.getLsbD_ofNat, Nat.testBit_two_pow_sub_one]

@[simp] theorem getElem_mask (k i : Nat) (hi : i < 16) : (mask k)[i] = decide (i < k) := by
  rw [← BitVec.getLsbD_eq_getElem, getLsbD_mask]
  simp [hi]

theorem and_mask_and_mask {k m : Nat} (h : k ≤ m) (a : Acc) : a &&& mask m &&& mask k = a &&& mask k := by
  apply BitVec.eq_of_getLsbD_eq
  intro i hi
  by_cases hk : i < k
  · simp [hk, hi, Nat.lt_of_lt_of_le hk h]
  · simp [hk, hi]

/-- Masking off bits above a byte does not change the byte. -/
theorem byteAbove_and_mask {k m : Nat} (h : k + 8 ≤ m) (a : Acc) : byteAbove k (a &&& mask m) = byteAbove k a := by
  apply BitVec.eq_of_getLsbD_eq
  intro i hi
  by_cases h16 : k + i < 16
  · simp [byteAbove, hi, h16, show k + i < m by omega]
  · simp [byteAbove, hi, BitVec.getLsbD_of_ge a (k + i) (by omega)]

/-- Masking off bits above a field does not change the field. -/
theorem fieldAbove_and_mask {k m : Nat} (h : k + 9 ≤ m) (a : Acc) : fieldAbove k (a &&& mask m) = fieldAbove k a := by
  apply BitVec.eq_of_getLsbD_eq
  intro i hi
  by_cases h16 : k + i < 16
  · simp [fieldAbove, hi, h16, show k + i < m by omega]
  · simp [fieldAbove, hi, BitVec.getLsbD_of_ge a (k + i) (by omega)]

theorem toNat_and_mask_lt (k : Nat) (a : Acc) : (a &&& mask k).toNat < 2 ^ k := by
  apply Nat.lt_pow_two_of_testBit
  intro i hi
  show (a &&& mask k).getLsbD i = false
  simp [show ¬ i < k by omega]

/-- The value offset never wraps (R73). -/
theorem toNat_valueOf (f : Field) : (valueOf f).toNat = f.toNat + 1 := by
  have := f.isLt
  simp only [valueOf, BitVec.toNat_add, BitVec.toNat_setWidth, BitVec.toNat_ofNat]
  omega

end Sys2Proof.Machine
end

