-- ==== Sys2Proof/Laws/State.lean ====
section
/-! SUPPORT. Laws/State.lean: one lemma per field per update of the state, so that no proof unfolds one. -/

namespace Sys2Proof.Machine.State

section emitW_fields
variable (s : State) (b : Byte)
@[simp] theorem emitW_wAcc : (s.emitW b).wAcc = s.wAcc := rfl
@[simp] theorem emitW_wCnt : (s.emitW b).wCnt = s.wCnt := rfl
@[simp] theorem emitW_rAcc : (s.emitW b).rAcc = s.rAcc := rfl
@[simp] theorem emitW_rCnt : (s.emitW b).rCnt = s.rCnt := rfl
@[simp] theorem emitW_ill : (s.emitW b).ill = s.ill := rfl
@[simp] theorem emitW_wOut : (s.emitW b).wOut = s.wOut ++ [b] := rfl
@[simp] theorem emitW_rOut : (s.emitW b).rOut = s.rOut := rfl
@[simp] theorem emitW_inputs : (s.emitW b).inputs = s.inputs := rfl
@[simp] theorem emitW_hasBeenReset : (s.emitW b).hasBeenReset = s.hasBeenReset := rfl
end emitW_fields

section emitR_fields
variable (s : State) (v : Value)
@[simp] theorem emitR_wAcc : (s.emitR v).wAcc = s.wAcc := rfl
@[simp] theorem emitR_wCnt : (s.emitR v).wCnt = s.wCnt := rfl
@[simp] theorem emitR_rAcc : (s.emitR v).rAcc = s.rAcc := rfl
@[simp] theorem emitR_rCnt : (s.emitR v).rCnt = s.rCnt := rfl
@[simp] theorem emitR_ill : (s.emitR v).ill = s.ill := rfl
@[simp] theorem emitR_wOut : (s.emitR v).wOut = s.wOut := rfl
@[simp] theorem emitR_rOut : (s.emitR v).rOut = s.rOut ++ [v] := rfl
@[simp] theorem emitR_inputs : (s.emitR v).inputs = s.inputs := rfl
@[simp] theorem emitR_hasBeenReset : (s.emitR v).hasBeenReset = s.hasBeenReset := rfl
end emitR_fields

section setWriter_fields
variable (s : State) (a : Acc) (n : Nat)
@[simp] theorem setWriter_wAcc : (s.setWriter a n).wAcc = a := rfl
@[simp] theorem setWriter_wCnt : (s.setWriter a n).wCnt = BitVec.ofNat 5 n := rfl
@[simp] theorem setWriter_rAcc : (s.setWriter a n).rAcc = s.rAcc := rfl
@[simp] theorem setWriter_rCnt : (s.setWriter a n).rCnt = s.rCnt := rfl
@[simp] theorem setWriter_ill : (s.setWriter a n).ill = s.ill := rfl
@[simp] theorem setWriter_wOut : (s.setWriter a n).wOut = s.wOut := rfl
@[simp] theorem setWriter_rOut : (s.setWriter a n).rOut = s.rOut := rfl
@[simp] theorem setWriter_inputs : (s.setWriter a n).inputs = s.inputs := rfl
@[simp] theorem setWriter_hasBeenReset : (s.setWriter a n).hasBeenReset = s.hasBeenReset := rfl
end setWriter_fields

section setReader_fields
variable (s : State) (a : Acc) (n : Nat)
@[simp] theorem setReader_wAcc : (s.setReader a n).wAcc = s.wAcc := rfl
@[simp] theorem setReader_wCnt : (s.setReader a n).wCnt = s.wCnt := rfl
@[simp] theorem setReader_rAcc : (s.setReader a n).rAcc = a := rfl
@[simp] theorem setReader_rCnt : (s.setReader a n).rCnt = BitVec.ofNat 5 n := rfl
@[simp] theorem setReader_ill : (s.setReader a n).ill = s.ill := rfl
@[simp] theorem setReader_wOut : (s.setReader a n).wOut = s.wOut := rfl
@[simp] theorem setReader_rOut : (s.setReader a n).rOut = s.rOut := rfl
@[simp] theorem setReader_inputs : (s.setReader a n).inputs = s.inputs := rfl
@[simp] theorem setReader_hasBeenReset : (s.setReader a n).hasBeenReset = s.hasBeenReset := rfl
end setReader_fields

section clearWriter_fields
variable (s : State)
@[simp] theorem clearWriter_wAcc : (s.clearWriter).wAcc = 0#16 := rfl
@[simp] theorem clearWriter_wCnt : (s.clearWriter).wCnt = 0#5 := rfl
@[simp] theorem clearWriter_rAcc : (s.clearWriter).rAcc = s.rAcc := rfl
@[simp] theorem clearWriter_rCnt : (s.clearWriter).rCnt = s.rCnt := rfl
@[simp] theorem clearWriter_ill : (s.clearWriter).ill = s.ill := rfl
@[simp] theorem clearWriter_wOut : (s.clearWriter).wOut = s.wOut := rfl
@[simp] theorem clearWriter_rOut : (s.clearWriter).rOut = s.rOut := rfl
@[simp] theorem clearWriter_inputs : (s.clearWriter).inputs = s.inputs := rfl
@[simp] theorem clearWriter_hasBeenReset : (s.clearWriter).hasBeenReset = s.hasBeenReset := rfl
end clearWriter_fields

section clearReader_fields
variable (s : State)
@[simp] theorem clearReader_wAcc : (s.clearReader).wAcc = s.wAcc := rfl
@[simp] theorem clearReader_wCnt : (s.clearReader).wCnt = s.wCnt := rfl
@[simp] theorem clearReader_rAcc : (s.clearReader).rAcc = 0#16 := rfl
@[simp] theorem clearReader_rCnt : (s.clearReader).rCnt = 0#5 := rfl
@[simp] theorem clearReader_ill : (s.clearReader).ill = s.ill := rfl
@[simp] theorem clearReader_wOut : (s.clearReader).wOut = s.wOut := rfl
@[simp] theorem clearReader_rOut : (s.clearReader).rOut = s.rOut := rfl
@[simp] theorem clearReader_inputs : (s.clearReader).inputs = s.inputs := rfl
@[simp] theorem clearReader_hasBeenReset : (s.clearReader).hasBeenReset = s.hasBeenReset := rfl
end clearReader_fields

section raiseIllegalCommand_fields
variable (s : State)
@[simp] theorem raiseIllegalCommand_wAcc : (s.raiseIllegalCommand).wAcc = s.wAcc := rfl
@[simp] theorem raiseIllegalCommand_wCnt : (s.raiseIllegalCommand).wCnt = s.wCnt := rfl
@[simp] theorem raiseIllegalCommand_rAcc : (s.raiseIllegalCommand).rAcc = s.rAcc := rfl
@[simp] theorem raiseIllegalCommand_rCnt : (s.raiseIllegalCommand).rCnt = s.rCnt := rfl
@[simp] theorem raiseIllegalCommand_ill : (s.raiseIllegalCommand).ill = true := rfl
@[simp] theorem raiseIllegalCommand_wOut : (s.raiseIllegalCommand).wOut = s.wOut := rfl
@[simp] theorem raiseIllegalCommand_rOut : (s.raiseIllegalCommand).rOut = s.rOut := rfl
@[simp] theorem raiseIllegalCommand_inputs : (s.raiseIllegalCommand).inputs = s.inputs := rfl
@[simp] theorem raiseIllegalCommand_hasBeenReset : (s.raiseIllegalCommand).hasBeenReset = s.hasBeenReset := rfl
end raiseIllegalCommand_fields

section applyReset_fields
variable (s : State)
@[simp] theorem applyReset_wAcc : (s.applyReset).wAcc = 0#16 := rfl
@[simp] theorem applyReset_wCnt : (s.applyReset).wCnt = 0#5 := rfl
@[simp] theorem applyReset_rAcc : (s.applyReset).rAcc = 0#16 := rfl
@[simp] theorem applyReset_rCnt : (s.applyReset).rCnt = 0#5 := rfl
@[simp] theorem applyReset_ill : (s.applyReset).ill = false := rfl
@[simp] theorem applyReset_wOut : (s.applyReset).wOut = s.wOut := rfl
@[simp] theorem applyReset_rOut : (s.applyReset).rOut = s.rOut := rfl
@[simp] theorem applyReset_inputs : (s.applyReset).inputs = s.inputs := rfl
@[simp] theorem applyReset_hasBeenReset : (s.applyReset).hasBeenReset = true := rfl
end applyReset_fields

section presenting_fields
variable (s : State) (ws : List Command)
@[simp] theorem presenting_wAcc : (s.presenting ws).wAcc = s.wAcc := rfl
@[simp] theorem presenting_wCnt : (s.presenting ws).wCnt = s.wCnt := rfl
@[simp] theorem presenting_rAcc : (s.presenting ws).rAcc = s.rAcc := rfl
@[simp] theorem presenting_rCnt : (s.presenting ws).rCnt = s.rCnt := rfl
@[simp] theorem presenting_ill : (s.presenting ws).ill = s.ill := rfl
@[simp] theorem presenting_wOut : (s.presenting ws).wOut = s.wOut := rfl
@[simp] theorem presenting_rOut : (s.presenting ws).rOut = s.rOut := rfl
@[simp] theorem presenting_inputs : (s.presenting ws).inputs = ws.map HostInput.command ++ s.inputs := rfl
@[simp] theorem presenting_hasBeenReset : (s.presenting ws).hasBeenReset = s.hasBeenReset := rfl
end presenting_fields

section withFetchWord_fields
variable (s : State) (k w : Nat)
@[simp] theorem withFetchWord_wAcc : (s.withFetchWord k w).wAcc = s.wAcc := rfl
@[simp] theorem withFetchWord_wCnt : (s.withFetchWord k w).wCnt = s.wCnt := rfl
@[simp] theorem withFetchWord_rAcc : (s.withFetchWord k w).rAcc = s.rAcc := rfl
@[simp] theorem withFetchWord_rCnt : (s.withFetchWord k w).rCnt = s.rCnt := rfl
@[simp] theorem withFetchWord_ill : (s.withFetchWord k w).ill = s.ill := rfl
@[simp] theorem withFetchWord_wOut : (s.withFetchWord k w).wOut = s.wOut := rfl
@[simp] theorem withFetchWord_rOut : (s.withFetchWord k w).rOut = s.rOut := rfl
@[simp] theorem withFetchWord_inputs : (s.withFetchWord k w).inputs = .command (BitVec.ofNat 12 w) :: s.inputs := rfl
@[simp] theorem withFetchWord_hasBeenReset : (s.withFetchWord k w).hasBeenReset = true := rfl
end withFetchWord_fields

end Sys2Proof.Machine.State
end

