-- ==== Sys2Proof/Laws/Drain.lean ====
section
/-! SUPPORT. Laws/Drain.lean: the two loops in closed form: what they emit, oldest first, and what they
leave. A proof about WPUSH or RFEED cites `writerDrain_eq` or `readerDrain_eq` and unfolds no loop. -/

namespace Sys2Proof.Machine

theorem writerDrain_of_lt {n : Nat} (h : n < 8) (fuel : Nat) (a : Acc) (s : State) :
    writerDrain fuel a n s = s.setWriter a n := by
  cases fuel with
  | zero => rfl
  | succ f => simp [writerDrain, show ¬ 8 ≤ n by omega]

theorem writerDrain_of_ge {n : Nat} (h : 8 ≤ n) (fuel : Nat) (a : Acc) (s : State) :
    writerDrain (fuel + 1) a n s =
      writerDrain fuel (a &&& mask (n - 8)) (n - 8) (s.emitW (byteAbove (n - 8) a)) := by
  simp [writerDrain, h]

theorem readerDrain_of_lt {n : Nat} (h : n < 9) (fuel : Nat) (a : Acc) (s : State) :
    readerDrain fuel a n s = s.setReader a n := by
  cases fuel with
  | zero => rfl
  | succ f => simp [readerDrain, show ¬ 9 ≤ n by omega]

theorem readerDrain_of_ge {n : Nat} (h : 9 ≤ n) (fuel : Nat) (a : Acc) (s : State) :
    readerDrain (fuel + 1) a n s =
      readerDrain fuel (a &&& mask (n - 9)) (n - 9) (s.emitR (valueOf (fieldAbove (n - 9) a))) := by
  simp [readerDrain, h]

/-- Everything WPUSH's loop does: it emits the `n / 8` whole bytes of the `n` valid bits and leaves the low
`n % 8` bits. -/
theorem writerDrain_eq (fuel : Nat) : ∀ (n : Nat) (a : Acc) (s : State), n ≤ fuel →
    writerDrain fuel a n s =
      { s with
        wAcc := if n < 8 then a else a &&& mask (n % 8)
        wCnt := BitVec.ofNat 5 (n % 8)
        wOut := s.wOut ++ (List.range (n / 8)).map (fun j => byteAbove (n - 8 * (j + 1)) a) } := by
  induction fuel with
  | zero =>
    intro n a s h
    obtain rfl : n = 0 := by omega
    simp [writerDrain, State.setWriter]
  | succ f ih =>
    intro n a s h
    by_cases h8 : 8 ≤ n
    · rw [writerDrain_of_ge h8, ih _ _ _ (by omega)]
      have hdiv : n / 8 = (n - 8) / 8 + 1 := by omega
      have hmod : n % 8 = (n - 8) % 8 := by omega
      have hbytes : (List.range (n / 8)).map (fun j => byteAbove (n - 8 * (j + 1)) a) =
          byteAbove (n - 8) a ::
            (List.range ((n - 8) / 8)).map (fun j => byteAbove (n - 8 - 8 * (j + 1)) (a &&& mask (n - 8))) := by
        rw [hdiv, List.range_succ_eq_map, List.map_cons, List.map_map]
        refine congrArg _ (List.map_congr_left fun j hj => ?_)
        have hj' := List.mem_range.mp hj
        rw [byteAbove_and_mask (by omega)]
        simp only [Function.comp]
        congr 1
        omega
      have hacc : (if n - 8 < 8 then a &&& mask (n - 8) else a &&& mask (n - 8) &&& mask ((n - 8) % 8)) =
          a &&& mask ((n - 8) % 8) := by
        split
        · rw [Nat.mod_eq_of_lt ‹_›]
        · exact and_mask_and_mask (Nat.mod_le _ _) a
      rw [hbytes, hmod, hacc, if_neg (by omega)]
      simp [State.emitW]
    · rw [writerDrain_of_lt (by omega)]
      simp [State.setWriter, show n < 8 by omega, show n / 8 = 0 by omega, show n % 8 = n by omega]

/-- Everything RFEED's loop does: it emits the `n / 9` whole fields of the `n` valid bits, each with the
value offset, and leaves the low `n % 9` bits. -/
theorem readerDrain_eq (fuel : Nat) : ∀ (n : Nat) (a : Acc) (s : State), n ≤ fuel →
    readerDrain fuel a n s =
      { s with
        rAcc := if n < 9 then a else a &&& mask (n % 9)
        rCnt := BitVec.ofNat 5 (n % 9)
        rOut := s.rOut ++ (List.range (n / 9)).map (fun j => valueOf (fieldAbove (n - 9 * (j + 1)) a)) } := by
  induction fuel with
  | zero =>
    intro n a s h
    obtain rfl : n = 0 := by omega
    simp [readerDrain, State.setReader]
  | succ f ih =>
    intro n a s h
    by_cases h9 : 9 ≤ n
    · rw [readerDrain_of_ge h9, ih _ _ _ (by omega)]
      have hdiv : n / 9 = (n - 9) / 9 + 1 := by omega
      have hmod : n % 9 = (n - 9) % 9 := by omega
      have hvalues : (List.range (n / 9)).map (fun j => valueOf (fieldAbove (n - 9 * (j + 1)) a)) =
          valueOf (fieldAbove (n - 9) a) ::
            (List.range ((n - 9) / 9)).map
              (fun j => valueOf (fieldAbove (n - 9 - 9 * (j + 1)) (a &&& mask (n - 9)))) := by
        rw [hdiv, List.range_succ_eq_map, List.map_cons, List.map_map]
        refine congrArg _ (List.map_congr_left fun j hj => ?_)
        have hj' := List.mem_range.mp hj
        rw [fieldAbove_and_mask (by omega)]
        simp only [Function.comp]
        congr 2
        omega
      have hacc : (if n - 9 < 9 then a &&& mask (n - 9) else a &&& mask (n - 9) &&& mask ((n - 9) % 9)) =
          a &&& mask ((n - 9) % 9) := by
        split
        · rw [Nat.mod_eq_of_lt ‹_›]
        · exact and_mask_and_mask (Nat.mod_le _ _) a
      rw [hvalues, hmod, hacc, if_neg (by omega)]
      simp [State.emitR]
    · rw [readerDrain_of_lt (by omega)]
      simp [State.setReader, show n < 9 by omega, show n / 9 = 0 by omega, show n % 9 = n by omega]

end Sys2Proof.Machine
end

