-- ==== Sys2Proof/Laws/Exec.lean ====
section
/-! SUPPORT. Laws/Exec.lean: each meaning in closed form, as one record update, and that no meaning reads or
writes the host's inputs. -/

namespace Sys2Proof.Machine

@[simp] theorem exec_nop_eq (s : State) : exec .nop s = .next s := rfl

/-- WPUSH in closed form: `n / 8` bytes out of `n = W_CNT + 9` valid bits, the low `n % 8` bits stay. -/
theorem exec_wpush_eq (v : Field) (s : State) :
    exec (.wpush v) s =
      .next { s with
        wAcc := ((s.wAcc <<< 9) ||| zextField v) &&& mask ((s.wCnt.toNat + 9) % 8)
        wCnt := BitVec.ofNat 5 ((s.wCnt.toNat + 9) % 8)
        wOut := s.wOut ++ (List.range ((s.wCnt.toNat + 9) / 8)).map
          (fun j => byteAbove (s.wCnt.toNat + 9 - 8 * (j + 1)) ((s.wAcc <<< 9) ||| zextField v)) } := by
  simp only [exec, execWpush]
  rw [writerDrain_eq _ _ _ _ (Nat.le_refl _), if_neg (by omega)]

/-- WFIN in closed form. -/
theorem exec_wfin_eq (s : State) :
    exec .wfin s =
      .next { s with
        wAcc := 0#16
        wCnt := 0#5
        wOut := s.wOut ++ if 0 < s.wCnt.toNat then [byteShiftedUp (8 - s.wCnt.toNat) s.wAcc] else [] } := by
  simp only [exec, execWfin]
  split <;> simp [State.emitW, State.clearWriter, State.setWriter, *]

theorem exec_wabort_eq (s : State) : exec .wabort s = .next { s with wAcc := 0#16, wCnt := 0#5 } := rfl

/-- RFEED in closed form: `n / 9` values out of `n = R_CNT + 8` valid bits, the low `n % 9` bits stay. -/
theorem exec_rfeed_eq (b : Byte) (s : State) :
    exec (.rfeed b) s =
      .next { s with
        rAcc := if s.rCnt.toNat + 8 < 9 then (s.rAcc <<< 8) ||| zextByte b
          else ((s.rAcc <<< 8) ||| zextByte b) &&& mask ((s.rCnt.toNat + 8) % 9)
        rCnt := BitVec.ofNat 5 ((s.rCnt.toNat + 8) % 9)
        rOut := s.rOut ++ (List.range ((s.rCnt.toNat + 8) / 9)).map
          (fun j => valueOf (fieldAbove (s.rCnt.toNat + 8 - 9 * (j + 1)) ((s.rAcc <<< 8) ||| zextByte b))) } := by
  simp only [exec, execRfeed]
  rw [readerDrain_eq _ _ _ _ (Nat.le_refl _)]

theorem exec_rend_eq (s : State) : exec .rend s = .next { s with rAcc := 0#16, rCnt := 0#5 } := rfl

/-- A meaning neither reads nor writes the host's inputs. -/
theorem exec_with_inputs {i : Instr} {s t : State} (l : List HostInput) (h : exec i s = .next t) :
    exec i { s with inputs := l } = .next { t with inputs := l } := by
  cases i with
  | nop => cases h; rfl
  | wpush v => rw [exec_wpush_eq] at h ⊢; cases h; rfl
  | wfin => rw [exec_wfin_eq] at h ⊢; cases h; rfl
  | wabort => cases h; rfl
  | rfeed b => rw [exec_rfeed_eq] at h ⊢; cases h; rfl
  | rend => cases h; rfl

/-- What no command changes: ILL, the inputs and the fact of a reset. -/
theorem exec_common_frame {i : Instr} {s t : State} (h : exec i s = .next t) :
    t.ill = s.ill ∧ t.inputs = s.inputs ∧ t.hasBeenReset = s.hasBeenReset := by
  cases i with
  | nop => cases h; exact ⟨rfl, rfl, rfl⟩
  | wpush v => rw [exec_wpush_eq] at h; cases h; exact ⟨rfl, rfl, rfl⟩
  | wfin => rw [exec_wfin_eq] at h; cases h; exact ⟨rfl, rfl, rfl⟩
  | wabort => cases h; exact ⟨rfl, rfl, rfl⟩
  | rfeed b => rw [exec_rfeed_eq] at h; cases h; exact ⟨rfl, rfl, rfl⟩
  | rend => cases h; exact ⟨rfl, rfl, rfl⟩

end Sys2Proof.Machine
end

