-- ==== Sys2Proof/Laws/Arith.lean ====
section
/-! SUPPORT. Laws/Arith.lean: the slices, masks and combine steps as numbers. -/

namespace Sys2Proof

theorem toNat_commandOf (op : BitVec 3) (opnd : BitVec 9) :
    (commandOf op opnd).toNat = op.toNat * 512 + opnd.toNat := by
  have h := BitVec.toNat_append op opnd
  simp only [commandOf]
  rw [h, ← Nat.shiftLeft_add_eq_or_of_lt opnd.isLt, Nat.shiftLeft_eq]

namespace Machine

/-- WPUSH's combine step loses nothing when at most 7 bits are pending (R23). -/
theorem toNat_pushed (a : Acc) (v : Field) (h : a.toNat < 2 ^ 7) :
    ((a <<< 9) ||| zextField v).toNat = a.toNat * 512 + v.toNat := by
  have := v.isLt
  simp only [BitVec.toNat_or, BitVec.toNat_shiftLeft, zextField, BitVec.toNat_setWidth]
  rw [Nat.mod_eq_of_lt (by rw [Nat.shiftLeft_eq]; omega), Nat.mod_eq_of_lt (by omega),
    ← Nat.shiftLeft_add_eq_or_of_lt (by omega), Nat.shiftLeft_eq]

/-- RFEED's combine step loses nothing when at most 8 bits are pending (R24). -/
theorem toNat_fed (a : Acc) (b : Byte) (h : a.toNat < 2 ^ 8) :
    ((a <<< 8) ||| zextByte b).toNat = a.toNat * 256 + b.toNat := by
  have := b.isLt
  simp only [BitVec.toNat_or, BitVec.toNat_shiftLeft, zextByte, BitVec.toNat_setWidth]
  rw [Nat.mod_eq_of_lt (by rw [Nat.shiftLeft_eq]; omega), Nat.mod_eq_of_lt (by omega),
    ← Nat.shiftLeft_add_eq_or_of_lt (by omega), Nat.shiftLeft_eq]

theorem toNat_byteAbove (k : Nat) (a : Acc) : (byteAbove k a).toNat = a.toNat / 2 ^ k % 256 := by
  simp [byteAbove, Nat.shiftRight_eq_div_pow]

theorem toNat_fieldAbove (k : Nat) (a : Acc) : (fieldAbove k a).toNat = a.toNat / 2 ^ k % 512 := by
  simp [fieldAbove, Nat.shiftRight_eq_div_pow]

theorem toNat_byteShiftedUp (k : Nat) (a : Acc) : (byteShiftedUp k a).toNat = a.toNat * 2 ^ k % 256 := by
  have : (256 : Nat) ∣ 65536 := by decide
  simp only [byteShiftedUp, BitVec.toNat_setWidth, BitVec.toNat_shiftLeft, Nat.shiftLeft_eq]
  omega

theorem toNat_and_mask {k : Nat} (hk : k ≤ 16) (a : Acc) : (a &&& mask k).toNat = a.toNat % 2 ^ k := by
  have h16 : 2 ^ k ≤ 2 ^ 16 := Nat.pow_le_pow_right (by decide) hk
  have h0 : 0 < 2 ^ k := Nat.two_pow_pos k
  simp only [BitVec.toNat_and, mask, BitVec.toNat_ofNat]
  rw [Nat.mod_eq_of_lt (by omega), Nat.and_two_pow_sub_one_eq_mod]

end Machine

end Sys2Proof
end

