-- ==== Sys2Proof/Laws/Bits.lean ====
section
/-! SUPPORT. Laws/Bits.lean: the channels as bit-streams. The law of each channel command is one equation: the
pending bits before, with the operand's bits, are the emitted elements' bits and the pending bits after. -/

namespace Sys2Proof.Machine

open BitStream

/-- The low `n` bits of a word in stream order, oldest (highest) first. -/
def lowBits {k : Nat} (n : Nat) (a : BitVec k) : List Bool := (List.range n).map (fun t => a.getLsbD (n - 1 - t))

@[simp] theorem length_lowBits {k : Nat} (n : Nat) (a : BitVec k) : (lowBits n a).length = n := by simp [lowBits]

@[simp] theorem length_bitsOf {k : Nat} (x : BitVec k) : (bitsOf x).length = k := by simp [bitsOf]

@[simp] theorem lowBits_zero {k : Nat} (a : BitVec k) : lowBits 0 a = [] := rfl

theorem bitsOf_eq_lowBits {k : Nat} (x : BitVec k) : bitsOf x = lowBits k x := rfl

theorem drop_lowBits {k : Nat} (n m : Nat) (a : BitVec k) : (lowBits (n + m) a).drop n = lowBits m a := by
  apply List.ext_getElem
  · simp
  · intro i h₁ h₂
    simp only [length_lowBits] at h₂
    simp [lowBits, show n + m - 1 - (n + i) = m - 1 - i by omega]

theorem take_lowBits {k : Nat} (n m : Nat) (a : BitVec k) : (lowBits (n + m) a).take n = lowBits n (a >>> m) := by
  apply List.ext_getElem
  · simp
  · intro i h₁ h₂
    simp only [length_lowBits] at h₂
    simp [lowBits, show n + m - 1 - i = m + (n - 1 - i) by omega]

theorem lowBits_add {k : Nat} (n m : Nat) (a : BitVec k) :
    lowBits (n + m) a = lowBits n (a >>> m) ++ lowBits m a := by
  rw [← take_lowBits, ← drop_lowBits n m a, List.take_append_drop]

/-- Only the low `n` bits matter. -/
theorem lowBits_congr {k j n : Nat} {a : BitVec k} {b : BitVec j} (h : ∀ i, i < n → a.getLsbD i = b.getLsbD i) :
    lowBits n a = lowBits n b := by
  apply List.map_congr_left
  intro t ht
  have := List.mem_range.mp ht
  exact h _ (by omega)

theorem lowBits_and_mask {n m : Nat} (h : n ≤ m) (a : Acc) : lowBits n (a &&& mask m) = lowBits n a := by
  apply lowBits_congr
  intro i hi
  by_cases h16 : i < 16
  · simp [h16, show i < m by omega]
  · simp [BitVec.getLsbD_of_ge a i (by omega)]

theorem lowBits_setWidth {k n : Nat} (j : Nat) (h : n ≤ j) (a : BitVec k) : lowBits n (a.setWidth j) = lowBits n a :=
  lowBits_congr fun i hi => by simp [show i < j by omega]

theorem bitsOf_byteAbove (k : Nat) (a : Acc) : bitsOf (byteAbove k a) = lowBits 8 (a >>> k) := by
  rw [bitsOf_eq_lowBits, byteAbove, lowBits_setWidth 8 (Nat.le_refl _)]

theorem bitsOf_fieldAbove (k : Nat) (a : Acc) : bitsOf (fieldAbove k a) = lowBits 9 (a >>> k) := by
  rw [bitsOf_eq_lowBits, fieldAbove, lowBits_setWidth 9 (Nat.le_refl _)]

theorem writerPending_eq (s : State) (h : s.wCnt.toNat ≤ 16) : s.writerPending = lowBits s.wCnt.toNat s.wAcc := by
  have := drop_lowBits (16 - s.wCnt.toNat) s.wCnt.toNat s.wAcc
  rw [show 16 - s.wCnt.toNat + s.wCnt.toNat = 16 by omega] at this
  exact this

theorem readerPending_eq (s : State) (h : s.rCnt.toNat ≤ 16) : s.readerPending = lowBits s.rCnt.toNat s.rAcc := by
  have := drop_lowBits (16 - s.rCnt.toNat) s.rCnt.toNat s.rAcc
  rw [show 16 - s.rCnt.toNat + s.rCnt.toNat = 16 by omega] at this
  exact this

@[simp] theorem length_writerPending (s : State) (h : s.wCnt.toNat ≤ 16) :
    s.writerPending.length = s.wCnt.toNat := by simp [writerPending_eq s h]

@[simp] theorem length_readerPending (s : State) (h : s.rCnt.toNat ≤ 16) :
    s.readerPending.length = s.rCnt.toNat := by simp [readerPending_eq s h]

/-- The combine step of WPUSH appends the field's bits to the pending bits. -/
theorem lowBits_push {c : Nat} (h : c + 9 ≤ 16) (a : Acc) (v : Field) :
    lowBits (c + 9) ((a <<< 9) ||| zextField v) = lowBits c a ++ bitsOf v := by
  rw [lowBits_add, bitsOf_eq_lowBits]
  congr 1
  · apply lowBits_congr
    intro i hi
    simp [zextField, show 9 + i < 16 by omega, BitVec.getLsbD_eq_getElem (show i < 16 by omega)]
  · apply lowBits_congr
    intro i hi
    simp [zextField, hi, show i < 16 by omega]

/-- The combine step of RFEED appends the byte's bits to the pending bits. -/
theorem lowBits_feed {c : Nat} (h : c + 8 ≤ 16) (a : Acc) (b : Byte) :
    lowBits (c + 8) ((a <<< 8) ||| zextByte b) = lowBits c a ++ bitsOf b := by
  rw [lowBits_add, bitsOf_eq_lowBits]
  congr 1
  · apply lowBits_congr
    intro i hi
    simp [zextByte, show 8 + i < 16 by omega, BitVec.getLsbD_eq_getElem (show i < 16 by omega)]
  · apply lowBits_congr
    intro i hi
    simp [zextByte, hi, show i < 16 by omega]

/-- The writer's loop loses and reorders no bit. -/
theorem writerDrain_conserves (fuel : Nat) : ∀ (n : Nat) (a : Acc) (s : State), n ≤ fuel →
    ∃ out : List Byte, writerDrain fuel a n s =
        { s with wAcc := (writerDrain fuel a n s).wAcc, wCnt := BitVec.ofNat 5 (n % 8), wOut := s.wOut ++ out }
      ∧ out.length = n / 8
      ∧ lowBits n a = out.flatMap bitsOf ++ lowBits (n % 8) (writerDrain fuel a n s).wAcc := by
  induction fuel with
  | zero =>
    intro n a s h
    obtain rfl : n = 0 := by omega
    exact ⟨[], by simp [writerDrain, State.setWriter], rfl, by simp⟩
  | succ f ih =>
    intro n a s h
    by_cases h8 : 8 ≤ n
    · rw [writerDrain_of_ge h8]
      obtain ⟨out, heq, hlen, hbits⟩ := ih (n - 8) (a &&& mask (n - 8)) (s.emitW (byteAbove (n - 8) a)) (by omega)
      refine ⟨byteAbove (n - 8) a :: out, ?_, ?_, ?_⟩
      · rw [heq]
        simp [State.emitW, show (n - 8) % 8 = n % 8 by omega]
      · simp only [List.length_cons]; omega
      · have h1 := lowBits_add 8 (n - 8) a
        rw [show 8 + (n - 8) = n by omega] at h1
        rw [h1, List.flatMap_cons, bitsOf_byteAbove, List.append_assoc, show n % 8 = (n - 8) % 8 by omega, ← hbits,
          lowBits_and_mask (Nat.le_refl _)]
    · rw [writerDrain_of_lt (by omega)]
      exact ⟨[], by simp [State.setWriter, show n % 8 = n by omega], by simp; omega,
        by simp [show n % 8 = n by omega]⟩

/-- The reader's loop loses and reorders no bit. -/
theorem readerDrain_conserves (fuel : Nat) : ∀ (n : Nat) (a : Acc) (s : State), n ≤ fuel →
    ∃ out : List Field, readerDrain fuel a n s =
        { s with rAcc := (readerDrain fuel a n s).rAcc, rCnt := BitVec.ofNat 5 (n % 9),
                 rOut := s.rOut ++ out.map valueOf }
      ∧ out.length = n / 9
      ∧ lowBits n a = out.flatMap bitsOf ++ lowBits (n % 9) (readerDrain fuel a n s).rAcc := by
  induction fuel with
  | zero =>
    intro n a s h
    obtain rfl : n = 0 := by omega
    exact ⟨[], by simp [readerDrain, State.setReader], rfl, by simp⟩
  | succ f ih =>
    intro n a s h
    by_cases h9 : 9 ≤ n
    · rw [readerDrain_of_ge h9]
      obtain ⟨out, heq, hlen, hbits⟩ :=
        ih (n - 9) (a &&& mask (n - 9)) (s.emitR (valueOf (fieldAbove (n - 9) a))) (by omega)
      refine ⟨fieldAbove (n - 9) a :: out, ?_, ?_, ?_⟩
      · rw [heq]
        simp [State.emitR, show (n - 9) % 9 = n % 9 by omega]
      · simp only [List.length_cons]; omega
      · have h1 := lowBits_add 9 (n - 9) a
        rw [show 9 + (n - 9) = n by omega] at h1
        rw [h1, List.flatMap_cons, bitsOf_fieldAbove, List.append_assoc, show n % 9 = (n - 9) % 9 by omega, ← hbits,
          lowBits_and_mask (Nat.le_refl _)]
    · rw [readerDrain_of_lt (by omega)]
      exact ⟨[], by simp [State.setReader, show n % 9 = n by omega], by simp; omega,
        by simp [show n % 9 = n by omega]⟩

/-- WPUSH as a bit-stream law: pending bits and field bits in, emitted bytes and pending bits out. -/
theorem wpush_conserves_bits (v : Field) (s : State) (h : s.wCnt.toNat ≤ 7) :
    ∃ (out : List Byte) (t : State), exec (.wpush v) s = .next t
      ∧ t = { s with wAcc := t.wAcc, wCnt := t.wCnt, wOut := s.wOut ++ out }
      ∧ t.wCnt.toNat = (s.wCnt.toNat + 9) % 8
      ∧ s.writerPending ++ bitsOf v = out.flatMap bitsOf ++ t.writerPending := by
  obtain ⟨out, heq, -, hbits⟩ := writerDrain_conserves (s.wCnt.toNat + 9) (s.wCnt.toNat + 9)
    ((s.wAcc <<< 9) ||| zextField v) s (Nat.le_refl _)
  refine ⟨out, _, rfl, ?_, ?_, ?_⟩
  · rw [heq]
  · rw [heq, BitVec.toNat_ofNat]; omega
  · have hc : (writerDrain (s.wCnt.toNat + 9) ((s.wAcc <<< 9) ||| zextField v) (s.wCnt.toNat + 9) s).wCnt.toNat =
        (s.wCnt.toNat + 9) % 8 := by rw [heq, BitVec.toNat_ofNat]; omega
    rw [writerPending_eq _ (by omega), writerPending_eq _ (by omega), hc, ← hbits, lowBits_push (by omega)]

/-- RFEED as a bit-stream law: pending bits and byte bits in, extracted fields and pending bits out. -/
theorem rfeed_conserves_bits (b : Byte) (s : State) (h : s.rCnt.toNat ≤ 8) :
    ∃ (out : List Field) (t : State), exec (.rfeed b) s = .next t
      ∧ t = { s with rAcc := t.rAcc, rCnt := t.rCnt, rOut := s.rOut ++ out.map valueOf }
      ∧ t.rCnt.toNat = (s.rCnt.toNat + 8) % 9
      ∧ s.readerPending ++ bitsOf b = out.flatMap bitsOf ++ t.readerPending := by
  obtain ⟨out, heq, -, hbits⟩ := readerDrain_conserves (s.rCnt.toNat + 8) (s.rCnt.toNat + 8)
    ((s.rAcc <<< 8) ||| zextByte b) s (Nat.le_refl _)
  refine ⟨out, _, rfl, ?_, ?_, ?_⟩
  · rw [heq]
  · rw [heq, BitVec.toNat_ofNat]; omega
  · have hc : (readerDrain (s.rCnt.toNat + 8) ((s.rAcc <<< 8) ||| zextByte b) (s.rCnt.toNat + 8) s).rCnt.toNat =
        (s.rCnt.toNat + 8) % 9 := by rw [heq, BitVec.toNat_ofNat]; omega
    rw [readerPending_eq _ (by omega), readerPending_eq _ (by omega), hc, ← hbits, lowBits_feed (by omega)]

end Sys2Proof.Machine
end

