-- ==== Sys2Proof/Laws/Duty.lean ====
section
/-! SUPPORT. Laws/Duty.lean: what the stream framing duty (43_host_sequences.md R92) says, command by command. -/

namespace Sys2Proof.Machine.Framing

theorem writerPart_eq_element (i : Instr) : writerPart i = .element ↔ (pushedField? i).isSome := by
  cases i <;> simp [writerPart, pushedField?]

theorem readerPart_eq_element (i : Instr) : readerPart i = .element ↔ (fedByte? i).isSome := by
  cases i <;> simp [readerPart, fedByte?]

/-- A command of `n` may come next only in the middle of `n`, or between streams if `n` has not ended. -/
theorem mayContinue_cases {ended : List Nat} {current : Option Nat} {n : Nat} (h : mayContinue ended current n = true) :
    current = some n ∨ current = none ∧ n ∉ ended := by
  cases current with
  | none => exact .inr ⟨rfl, by simpa [mayContinue] using h⟩
  | some m => exact .inl (by simpa [mayContinue] using h)

theorem finished_cons (part : Instr → Part) (x : Sent) (l : List Sent) :
    finished part (x :: l) = (if part x.command = .finish then [x.stream] else []) ++ finished part l := by
  by_cases h : part x.command = .finish <;> simp [finished, h]

theorem fieldsSent_cons (n : Nat) (x : Sent) (l : List Sent) : fieldsSent n (x :: l) =
    (if x.stream = n then (pushedField? x.command).toList else []) ++ fieldsSent n l := by
  by_cases h : x.stream = n <;> cases hp : pushedField? x.command <;> simp [fieldsSent, commandsOf, h, hp]

theorem bytesSent_cons (n : Nat) (x : Sent) (l : List Sent) : bytesSent n (x :: l) =
    (if x.stream = n then (fedByte? x.command).toList else []) ++ bytesSent n l := by
  by_cases h : x.stream = n <;> cases hp : fedByte? x.command <;> simp [bytesSent, commandsOf, h, hp]

/-- A stream that has ended and is not in progress neither carries an element nor ends again. -/
theorem dutyKept_of_ended {part : Instr → Part} {n : Nat} {l : List Sent} : ∀ {ended : List Nat}
    {current : Option Nat}, dutyKept part ended current l = true → n ∈ ended → current ≠ some n →
    ∀ x ∈ l, x.stream = n → part x.command ≠ .element ∧ part x.command ≠ .finish := by
  induction l with
  | nil => simp
  | cons y l ih =>
    intro ended current hd he hc
    have other : mayContinue ended current y.stream = true → y.stream ≠ n := by
      intro hm hn
      rcases mayContinue_cases hm with h | h
      · exact hc (hn ▸ h)
      · exact h.2 (hn ▸ he)
    simp only [dutyKept] at hd
    intro x hx hn
    rcases List.mem_cons.mp hx with rfl | hx
    · cases hp : part x.command <;> simp only [hp, Bool.and_eq_true] at hd
      · exact absurd hn (other hd.1)
      · exact absurd hn (other hd.1)
      · simp
      · simp
    · cases hp : part y.command <;> simp only [hp, Bool.and_eq_true] at hd
      · exact ih hd.2 he (by simpa using other hd.1) x hx hn
      · exact ih hd.2 (List.mem_cons_of_mem _ he) (by simp) x hx hn
      · exact ih hd.2 he (by simp) x hx hn
      · exact ih hd he hc x hx hn

theorem fieldsSent_eq_nil {n : Nat} {l : List Sent}
    (h : ∀ x ∈ l, x.stream = n → writerPart x.command ≠ .element) : fieldsSent n l = [] := by
  induction l with
  | nil => rfl
  | cons x l ih =>
    rw [fieldsSent_cons, ih fun y hy => h y (List.mem_cons_of_mem _ hy)]
    by_cases hx : x.stream = n
    · simpa [hx, writerPart_eq_element] using h x (List.mem_cons_self ..) hx
    · simp [hx]

theorem bytesSent_eq_nil {n : Nat} {l : List Sent}
    (h : ∀ x ∈ l, x.stream = n → readerPart x.command ≠ .element) : bytesSent n l = [] := by
  induction l with
  | nil => rfl
  | cons x l ih =>
    rw [bytesSent_cons, ih fun y hy => h y (List.mem_cons_of_mem _ hy)]
    by_cases hx : x.stream = n
    · simpa [hx, readerPart_eq_element] using h x (List.mem_cons_self ..) hx
    · simp [hx]

end Sys2Proof.Machine.Framing
end

