-- ==== Sys2Proof/Laws/Framing.lean ====
section
/-! SUPPORT. Laws/Framing.lean: a stream of elements' bits, read back by the framing formulas (20_memory.md R35). -/

namespace Sys2Proof.Machine

open BitStream

theorem length_flatMap_bitsOf {k : Nat} (l : List (BitVec k)) : (l.flatMap bitsOf).length = k * l.length := by
  induction l with
  | nil => simp
  | cons a l ih => simp [ih, Nat.mul_succ]; omega

theorem getElem?_bitsOf {k : Nat} (x : BitVec k) {t : Nat} (h : t < k) :
    (bitsOf x)[t]? = some (x.getLsbD (k - 1 - t)) := by
  simp [bitsOf, h]

/-- Bit `k·i + t` of a stream of `k`-bit elements is bit `k-1-t` of element `i`. -/
theorem getElem?_flatMap_bitsOf {k : Nat} (l : List (BitVec k)) (rest : List Bool) : ∀ {i t : Nat}
    (hi : i < l.length), t < k → (l.flatMap bitsOf ++ rest)[k * i + t]? = some (l[i].getLsbD (k - 1 - t)) := by
  induction l with
  | nil => intro i t hi; simp at hi
  | cons a l ih =>
    intro i t hi ht
    rw [List.flatMap_cons, List.append_assoc]
    cases i with
    | zero =>
      rw [List.getElem?_append_left (by simp; omega)]
      simpa using getElem?_bitsOf a ht
    | succ i =>
      rw [List.getElem?_append_right (by simp [Nat.mul_succ]; omega)]
      simp only [length_bitsOf, List.getElem_cons_succ]
      rw [show k * (i + 1) + t - k = k * i + t by rw [Nat.mul_succ]; omega]
      exact ih (by simpa using hi) ht

theorem bitAt_of_getElem? {s : List Bool} {k : Nat} {b : Bool} (h : s[k]? = some b) : bitAt s k = b.toNat := by
  simp [bitAt, List.getD, h]

theorem byte_eq_sum (b : Byte) :
    BitVec.ofNat 8 ((List.range 8).map (fun u => (b.getLsbD (7 - u)).toNat * 2 ^ (7 - u))).sum = b := by
  revert b; decide

theorem field_eq_sum (f : Field) :
    BitVec.ofNat 9 ((List.range 9).map (fun t => (f.getLsbD (8 - t)).toNat * 2 ^ (8 - t))).sum = f := by
  revert f; decide

/-- The byte formula reads byte `j` of a stream of bytes. -/
theorem byteAt_flatMap (l : List Byte) (rest : List Bool) {j : Nat} (h : j < l.length) :
    byteAt (l.flatMap bitsOf ++ rest) j = l[j] := by
  rw [← byte_eq_sum l[j], byteAt]
  refine congrArg (BitVec.ofNat 8) (congrArg List.sum (List.map_congr_left fun u hu => ?_))
  rw [bitAt_of_getElem? (getElem?_flatMap_bitsOf l rest h (List.mem_range.mp hu))]

/-- The field formula reads field `i` of a stream of fields. -/
theorem fieldAt_flatMap (l : List Field) (rest : List Bool) {i : Nat} (h : i < l.length) :
    fieldAt (l.flatMap bitsOf ++ rest) i = l[i] := by
  rw [← field_eq_sum l[i], fieldAt]
  refine congrArg (BitVec.ofNat 9) (congrArg List.sum (List.map_congr_left fun t ht => ?_))
  rw [bitAt_of_getElem? (getElem?_flatMap_bitsOf l rest h (List.mem_range.mp ht))]

/-- Cutting a stream of bytes into bytes gives the bytes; fewer than 8 further bits are left out. -/
theorem bytesOf_flatMap (l : List Byte) {rest : List Bool} (h : rest.length < 8) :
    bytesOf (l.flatMap bitsOf ++ rest) = l := by
  apply List.ext_getElem
  · simp only [bytesOf, List.length_map, List.length_range, List.length_append, length_flatMap_bitsOf]
    omega
  · intro i _ h₂
    simp only [bytesOf, List.getElem_map, List.getElem_range]
    exact byteAt_flatMap l rest h₂

/-- Cutting a stream of fields into fields gives the fields; fewer than 9 further bits are left out. -/
theorem fieldsOf_flatMap (l : List Field) {rest : List Bool} (h : rest.length < 9) :
    fieldsOf (l.flatMap bitsOf ++ rest) = l := by
  apply List.ext_getElem
  · simp only [fieldsOf, List.length_map, List.length_range, List.length_append, length_flatMap_bitsOf]
    omega
  · intro i _ h₂
    simp only [fieldsOf, List.getElem_map, List.getElem_range]
    exact fieldAt_flatMap l rest h₂

end Sys2Proof.Machine
end

