-- ==== Sys2Proof/Laws/PerInstr.lean ====
section
/-! SUPPORT. Laws/PerInstr.lean: per command, as syntax: its word is a legal word of the opcode map, in the
row of its own mnemonic and in no other (30_encoding.md R48). -/

namespace Sys2Proof.Laws.EncodedWordLegal

def Statement (i : Instr) : Prop :=
  (opcodeTable.filter (fun r => r.matchesWord (encode i))).map OpcodeRow.mnemonic = [i.mnemonic]

theorem nop : Statement .nop := by unfold Statement; decide

theorem wpush (v : Field) : Statement (.wpush v) := by unfold Statement; revert v; decide

theorem wfin : Statement .wfin := by unfold Statement; decide

theorem wabort : Statement .wabort := by unfold Statement; decide

theorem rfeed (b : Byte) : Statement (.rfeed b) := by unfold Statement; revert b; decide

theorem rend : Statement .rend := by unfold Statement; decide

end Sys2Proof.Laws.EncodedWordLegal
end

