-- ==== Sys2Proof/Laws/Step.lean ====
section
/-! SUPPORT. Laws/Step.lean: a step by its next input, and a run over presented words by its first word. -/

namespace Sys2Proof.Machine

theorem step_of_inputs_nil {s : State} (h : s.inputs = []) : step s = .next s := by
  simp [step, State.takeInput, h]

theorem step_of_inputs_cons {s : State} {h : HostInput} {rest : List HostInput} (hs : s.inputs = h :: rest) :
    step s = runInput h { s with inputs := rest } := by
  simp [step, State.takeInput, hs]

theorem execWord_of_ok {w : Command} {i : Instr} (h : decode w = .ok i) (s : State) : execWord w s = exec i s := by
  simp [execWord, h]

theorem execWord_of_error {w : Command} {e : DecodeReject} (h : decode w = .error e) (s : State) :
    execWord w s = .next s.raiseIllegalCommand := by
  simp [execWord, h]

/-- A word neither reads nor writes the host's inputs. -/
theorem execWord_with_inputs {w : Command} {s t : State} (l : List HostInput) (h : execWord w s = .next t) :
    execWord w { s with inputs := l } = .next { t with inputs := l } := by
  match hd : decode w with
  | .ok i => rw [execWord_of_ok hd] at h ⊢; exact exec_with_inputs l h
  | .error e => rw [execWord_of_error hd] at h ⊢; cases h; rfl

/-- No word changes whether reset has been asserted. -/
theorem execWord_hasBeenReset {w : Command} {s t : State} (h : execWord w s = .next t) :
    t.hasBeenReset = s.hasBeenReset ∧ t.inputs = s.inputs := by
  match hd : decode w with
  | .ok i => rw [execWord_of_ok hd] at h; exact ⟨(exec_common_frame h).2.2, (exec_common_frame h).2.1⟩
  | .error e => rw [execWord_of_error hd] at h; cases h; exact ⟨rfl, rfl⟩

@[simp] theorem driveWords_nil (s : State) : driveWords [] s = .next s := rfl

/-- A run over presented words is the first word, then the run over the rest. -/
theorem driveWords_cons {w : Command} {s t : State} (ws : List Command) (hr : s.hasBeenReset = true)
    (h : execWord w s = .next t) : driveWords (w :: ws) s = driveWords ws t := by
  have ht := (execWord_hasBeenReset h).2
  have hstep : step (s.presenting (w :: ws)) = .next (t.presenting ws) := by
    rw [step_of_inputs_cons (h := .command w) (rest := ws.map HostInput.command ++ s.inputs) rfl]
    have := execWord_with_inputs (ws.map HostInput.command ++ s.inputs) h
    simpa [runInput, State.presenting, hr, ht] using this
  have hcore : Sys2Proof.core.step (s.presenting (w :: ws)) = .next (t.presenting ws) := hstep
  simp only [driveWords, List.length_cons, Host.Core.run, hcore]
  rfl

/-- A run over presented words, split in two. -/
theorem driveWords_append {ws : List Command} : ∀ {s t : State} (us : List Command), s.hasBeenReset = true →
    driveWords ws s = .next t → (∀ w ∈ ws, ∀ u : State, ∃ u', execWord w u = .next u') →
    driveWords (ws ++ us) s = driveWords us t := by
  induction ws with
  | nil => intro s t us _ h _; cases h; rfl
  | cons w ws ih =>
    intro s t us hr h hall
    obtain ⟨s', hs'⟩ := hall w (List.mem_cons_self ..) s
    rw [driveWords_cons ws hr hs'] at h
    rw [List.cons_append, driveWords_cons (ws ++ us) hr hs']
    exact ih us ((execWord_hasBeenReset hs').1.trans hr) h (fun w hw => hall w (List.mem_cons_of_mem _ hw))

end Sys2Proof.Machine
end

