-- ==== Sys2Proof/Tests/Slice0.lean ====
section
/-! SUPPORT. Tests/Slice0.lean: checks of the model against the spec's own vectors (95_test_vectors.md L2, L3;
30_encoding.md R48, R50), and a witness of the hypotheses of every statement that has some. -/

namespace Sys2Proof.Tests

open Sys2Proof Sys2Proof.Machine Sys2Proof.Machine.BitStream Sys2Proof.Machine.Driver
open Sys2Proof.Machine.Assembler Sys2Proof.Machine.Framing

/-- The reset state with the writer at W(acc, cnt), as 95_test_vectors.md writes it. -/
abbrev writerAt (a : Acc) (n : Count) : State := { State.reset with wAcc := a, wCnt := n }

/-- The reset state with the reader at R(acc, cnt). -/
abbrev readerAt (a : Acc) (n : Count) : State := { State.reset with rAcc := a, rCnt := n }

-- Decoding: words written out bit by bit from the opcode map (R47, R48).

theorem test_decode_nop : decode 0b000000000000#12 = .ok .nop := by decide
theorem test_decode_wpush : decode 0b001010111011#12 = .ok (.wpush 0b010111011#9) := by decide
theorem test_decode_wfin : decode 0b010000000000#12 = .ok .wfin := by decide
theorem test_decode_wabort : decode 0b011000000000#12 = .ok .wabort := by decide
theorem test_decode_rfeed : decode 0b100010110000#12 = .ok (.rfeed 0b10110000#8) := by decide
theorem test_decode_rend : decode 0b101000000000#12 = .ok .rend := by decide
theorem test_decodeTableWord_highest_rfeed : decodeTableWord 16 0x8FF = some (.rfeed 0xFF#8) := by decide
theorem test_decodeTableWord_rfeed_with_bit8 : decodeTableWord 16 0x900 = none := by decide

-- WellFormed smoke: an ill-formed word for each check (R50; L2 "NOP and illegal words").

theorem test_illFormed_nop_operand : Command.wellFormed 0x001#12 = false := by decide
theorem test_illFormed_wfin_operand : Command.wellFormed 0x401#12 = false := by decide
theorem test_illFormed_wabort_operand : Command.wellFormed 0x601#12 = false := by decide
theorem test_illFormed_rfeed_bit8 : Command.wellFormed 0x900#12 = false := by decide
theorem test_illFormed_rend_operand : Command.wellFormed 0xA01#12 = false := by decide
theorem test_illFormed_op110 : Command.wellFormed 0xC00#12 = false := by decide
theorem test_illFormed_op111 : Command.wellFormed 0xFFF#12 = false := by decide
theorem test_wellFormed_highest_words :
    Command.wellFormed 0x3FF#12 = true ∧ Command.wellFormed 0x8FF#12 = true := by decide

/-- An ill-formed source statement for each operand check (R53, R54). -/
theorem test_illFormed_statements :
    [AsmStmt.wpush 512, .rfeed 256, .pushn 0, .pushn 513, .wstream [0, 512], .rstream [256]].any
      AsmStmt.wellFormed = false := by decide

-- Commands (L2).

theorem test_wpush_at_4 : exec (.wpush 0x12B#9) (writerAt 0x0B#16 4#5) =
    .next { writerAt 0x0B#16 5#5 with wOut := [0xB9#8] } := by rfl

theorem test_wpush_two_bytes : exec (.wpush 0x1FF#9) (writerAt 0x7F#16 7#5) =
    .next { writerAt 0#16 0#5 with wOut := [0xFF#8, 0xFF#8] } := by rfl

theorem test_wfin_pads : exec .wfin (writerAt 0x0B#16 4#5) =
    .next { writerAt 0#16 0#5 with wOut := [0xB0#8] } := by rfl

theorem test_wfin_clean : exec .wfin (writerAt 0#16 0#5) = .next (writerAt 0#16 0#5) := by rfl

theorem test_wabort : exec .wabort (writerAt 0x7F#16 7#5) = .next (writerAt 0#16 0#5) := by rfl

theorem test_rfeed_at_7 : exec (.rfeed 0xDD#8) (readerAt 0x2E#16 7#5) =
    .next { readerAt 0x1D#16 6#5 with rOut := [188#10] } := by rfl

theorem test_rfeed_512 : exec (.rfeed 0xFF#8) (readerAt 0xFF#16 8#5) =
    .next { readerAt 0x7F#16 7#5 with rOut := [512#10] } := by rfl

theorem test_rend : exec .rend (readerAt 0xFF#16 8#5) = .next (readerAt 0#16 0#5) := by rfl

theorem test_nop : exec .nop (readerAt 0x2A#16 8#5) = .next (readerAt 0x2A#16 8#5) := by rfl

-- The port, reset and STATUS.

/-- 42_control.md R80's example: W_CNT = 3, word 0xC00, STATUS goes from 0x0003 to 0x0103. -/
theorem test_illegal_step : step ((writerAt 0x5#16 3#5).presenting [0xC00#12]) =
    .next { writerAt 0x5#16 3#5 with ill := true } := by rfl

theorem test_status_before_and_after_illegal :
    (writerAt 0x5#16 3#5).status = 0x0003#16
      ∧ ({ writerAt 0x5#16 3#5 with ill := true } : State).status = 0x0103#16 := by decide

/-- P3, `RFEED 0x2A`: STATUS 0x0180 with ILL set. -/
theorem test_status_reader_8 : ({ readerAt 0x2A#16 8#5 with ill := true } : State).status = 0x0180#16 := by decide

theorem test_step_first_command : step (State.reset.withFetchWord 16 0x3FF) =
    .next { writerAt 0x1#16 1#5 with wOut := [0xFF#8] } := by rfl

theorem test_reset_over_a_word :
    step { writerAt 0x7F#16 7#5 with ill := true, wOut := [0x95#8], inputs := [.reset (some 0x3FF#12)] } =
      .next { State.reset with wOut := [0x95#8] } := by rfl

-- The assembler (R53, R54) and the host's procedures (R84).

/-- "WPUSH 0xBB ;c" -/
theorem test_assemble_wpush :
    assembleLine ['W', 'P', 'U', 'S', 'H', ' ', '0', 'x', 'B', 'B', ' ', ';', 'c'] = .ok [.wpush 0xBB#9] := by decide

/-- "WSTREAM 1,0b10" -/
theorem test_assemble_wstream :
    assembleLine ['W', 'S', 'T', 'R', 'E', 'A', 'M', ' ', '1', ',', '0', 'b', '1', '0'] =
      .ok [.wpush 1#9, .wpush 2#9, .wfin] := by decide

/-- "NOP 0" is refused: NOP takes no operand. -/
theorem test_assemble_nop_operand : assembleLine ['N', 'O', 'P', ' ', '0'] = .error .badOperand := by decide

/-- R53's listing example: "2BB  WPUSH 0xBB". -/
theorem test_listing :
    listingLine (.wpush 0xBB#9) =
      ['2', 'B', 'B', ' ', ' ', 'W', 'P', 'U', 'S', 'H', ' ', '0', 'x', 'B', 'B'] := by decide

/-- L1-4, L1-5: what the host pushes for [3,1,2,1,0,301], and what it reports. -/
theorem test_host_encode_commands :
    encodeCommands [3, 1, 2, 1, 0, 301] = [.wpush 0#9, .wpush 1#9, .wpush 2#9, .wfin]
      ∧ violations [3, 1, 2, 1, 0, 301] = [0, 301] := by decide

-- Witnesses: states and operands that meet the hypotheses of each statement that has some.

/-- DecoderAgreesWithOpcodeTable, EncodeOfDecodeIsTheWord, IllegalWordsAreExactlyThese. -/
theorem witness_decode_both_ways :
    decode 0x2BB#12 = .ok (.wpush 0xBB#9) ∧ decode 0xC00#12 = .error .reservedOpcode := by decide

/-- PseudoInstructionExpansions: the boundary values of each range. -/
theorem witness_PseudoInstructionExpansions :
    (1 ≤ 1 ∧ 1 ≤ 512) ∧ (1 ≤ 512 ∧ 512 ≤ 512) ∧ ((0 : Nat) = 0 ∨ 512 < 0) ∧ (513 = 0 ∨ 512 < 513)
      ∧ 511 < 512 ∧ 255 < 256 := by decide

/-- ResetInputClearsRegistersOnly, ResetEstablishesTheInvariant: reset over a word, from out-of-range counts. -/
theorem witness_reset_input :
    let s : State := { State.reset with wAcc := 0xFFFF#16, wCnt := 31#5, rCnt := 31#5, hasBeenReset := false,
                                        inputs := [.reset (some 0x3FF#12)] }
    s.inputs = .reset (some 0x3FF#12) :: [] ∧ s.ValuesInRange ∧ ∃ t, step s = .next t :=
  ⟨rfl, by decide, _, rfl⟩

/-- PowerUpNeedsOneReset. -/
theorem witness_PowerUpNeedsOneReset :
    let s : State := { State.powerUp with inputs := [.command 0x3FF#12] }
    s.hasBeenReset = false ∧ s.inputs = .command 0x3FF#12 :: [] := ⟨rfl, rfl⟩

/-- StatusFields: both counts at the ends of their ranges. -/
theorem witness_StatusFields :
    let s : State := { State.reset with wCnt := 7#5, rCnt := 8#5 }
    s.wCnt.toNat ≤ 7 ∧ s.rCnt.toNat ≤ 8 := by decide

/-- IllIsStickyAndNeverRead (setting), IllegalWordSetsIllOnly, ConcurrentStatusIsBeforeOrAfter. -/
theorem witness_illegal_word_sets_ill :
    let s := State.reset.presenting [0x900#12]
    s.hasBeenReset = true ∧ s.inputs = .command 0x900#12 :: [] ∧ decode 0x900#12 = .error .reservedBit8
      ∧ s.ill = false ∧ ∃ t, step s = .next t ∧ t.ill = true :=
  ⟨rfl, rfl, by decide, rfl, _, rfl, rfl⟩

/-- IllIsStickyAndNeverRead (clearing). -/
theorem witness_reset_clears_ill :
    let s : State := { State.reset with ill := true, inputs := [.reset none] }
    s.ill = true ∧ ∃ t, step s = .next t ∧ t.ill = false := ⟨rfl, _, rfl, rfl⟩

/-- StepRunsTheDecodedCommand, StepAlwaysCompletesAfterReset, StreamsOnlyGrow, InputsAreTakenOnceInOrder. -/
theorem witness_step_runs_wpush :
    let s := State.reset.presenting [0x3FF#12]
    s.hasBeenReset = true ∧ s.inputs = .command 0x3FF#12 :: [] ∧ decode 0x3FF#12 = .ok (.wpush 0x1FF#9)
      ∧ (∃ t, step s = .next t) ∧ State.reset.inputs = [] :=
  ⟨rfl, rfl, by decide, ⟨_, rfl⟩, rfl⟩

/-- EveryStepKeepsTheInvariant: at the largest counts, through a WPUSH. -/
theorem witness_EveryStepKeepsTheInvariant :
    let s : State := { State.reset with wAcc := 0x7F#16, wCnt := 7#5, rAcc := 0xFF#16, rCnt := 8#5,
                                        rOut := [512#10], inputs := [.command 0x3FF#12] }
    s.Inv ∧ ∃ t, step s = .next t := ⟨by decide, _, rfl⟩

/-- NopChangesNothing, the illegal clause. -/
theorem witness_NopChangesNothing : Command.op 0x001#12 = 0b000#3 ∧ Command.opnd 0x001#12 ≠ 0#9 := by decide

/-- WpushPacksTheField, WpushEmitsOneOrTwoBytes, WfinPadsAndClears, WriterPrependsPendingBits: each clause's
counts at their boundaries. -/
theorem witness_writer_counts :
    (writerAt 0#16 0#5).WriterInv ∧ (writerAt 0x3F#16 6#5).WriterInv ∧ (writerAt 0x3F#16 6#5).wCnt.toNat ≤ 6
      ∧ (writerAt 0x7F#16 7#5).WriterInv ∧ (writerAt 0x7F#16 7#5).wCnt.toNat = 7
      ∧ (writerAt 0x7F#16 7#5).hasBeenReset = true := by decide

/-- RfeedExtractsTheField, RfeedEmitsAtMostOneValue, ReaderPrependsPendingBits. -/
theorem witness_reader_counts :
    (readerAt 0#16 0#5).ReaderInv ∧ (readerAt 0#16 0#5).rCnt.toNat = 0 ∧ (readerAt 1#16 1#5).ReaderInv
      ∧ 1 ≤ (readerAt 1#16 1#5).rCnt.toNat ∧ (readerAt 0xFF#16 8#5).ReaderInv
      ∧ 1 ≤ (readerAt 0xFF#16 8#5).rCnt.toNat ∧ (readerAt 0xFF#16 8#5).hasBeenReset = true := by decide

/-- WriterCommandsTouchOnlyTheWriter, ReaderCommandsTouchOnlyTheReader. -/
theorem witness_channel_commands :
    (Instr.wpush 1#9 = .wfin ∨ Instr.wpush 1#9 = .wabort ∨ ∃ v, Instr.wpush 1#9 = .wpush v)
      ∧ (Instr.rfeed 1#8 = .rend ∨ ∃ b, Instr.rfeed 1#8 = .rfeed b)
      ∧ (writerAt 0x7F#16 7#5).wAcc = 0x7F#16 ∧ (writerAt 0x7F#16 7#5).wCnt = 7#5
      ∧ (readerAt 0xFF#16 8#5).rAcc = 0xFF#16 ∧ (readerAt 0xFF#16 8#5).rCnt = 8#5 :=
  ⟨.inr (.inr ⟨_, rfl⟩), .inr ⟨_, rfl⟩, rfl, rfl, rfl, rfl⟩

/-- RepeatedWfinEmitsNothing. -/
theorem witness_RepeatedWfinEmitsNothing : ∃ t, exec .wfin (writerAt 0x0B#16 4#5) = .next t := ⟨_, rfl⟩

/-- StaleAccumulatorBitsAreUnobservable: two states that do differ. -/
theorem witness_StaleAccumulatorBitsAreUnobservable :
    (writerAt 0x1#16 1#5).hasBeenReset = true ∧ writerAt 0x1#16 1#5 ≠ writerAt 0xFF01#16 1#5
      ∧ SameButStale (writerAt 0x1#16 1#5) (writerAt 0xFF01#16 1#5) :=
  ⟨rfl, by decide, ⟨by decide, by decide, rfl, by decide, by decide⟩⟩

/-- FieldBitsInStreamOrder, ByteBitsInStreamOrder. -/
theorem witness_stream_positions :
    0 < [0x12B#9].length ∧ 1 < (bytesOf (padded (fieldBits [0x12B#9]))).length := by decide

/-- The stream laws that start at clean channels: WriterBitConservation, ReaderBitConservation,
WriterLengthLaw, WriterContentLaw, ReaderLengthLaw, ReaderFramingLaw, WriterReaderRoundTrip,
InterleavedChannelsDoNotInterfere, HostDecodeOfEncodeIsSort, HostEmptyAndArbitraryInput. -/
theorem witness_clean_after_reset :
    State.reset.hasBeenReset = true ∧ State.reset.WriterClean ∧ State.reset.ReaderClean
      ∧ (∀ x ∈ ([0, 301] : List Int), ¬ (1 ≤ x ∧ x ≤ 300)) := by decide

/-- CommandsLeavingNoStreamOpenEndClean: a stream ended, one on the reader, and one discarded. -/
theorem witness_CommandsLeavingNoStreamOpenEndClean :
    leavesNoStreamOpen [.wpush 5#9, .rfeed 1#8, .wfin, .rend, .wpush 6#9, .wabort] = true
      ∧ State.reset.hasBeenReset = true ∧ State.reset.WriterClean ∧ State.reset.ReaderClean := by decide

/-- Two writer streams and two reader streams, interleaved, with a WABORT between two streams. -/
abbrev framedExample : List Sent :=
  [⟨1, .wpush 5#9⟩, ⟨7, .rfeed 1#8⟩, ⟨1, .wpush 6#9⟩, ⟨0, .nop⟩, ⟨1, .wfin⟩, ⟨7, .rfeed 2#8⟩, ⟨0, .wabort⟩,
    ⟨2, .wpush 300#9⟩, ⟨7, .rend⟩, ⟨1, .rfeed 9#8⟩, ⟨2, .wfin⟩, ⟨1, .rend⟩]

/-- FramedStreamsComeOutWhole. -/
theorem witness_FramedStreamsComeOutWhole :
    framingDuty framedExample = true ∧ finished writerPart framedExample = [1, 2]
      ∧ fieldsSent 1 framedExample = [5#9, 6#9] ∧ State.reset.hasBeenReset = true
      ∧ State.reset.WriterClean ∧ State.reset.ReaderClean := by decide

/-- R92: each way of breaking the duty is seen: no WFIN, WABORT in place of WFIN, no REND, two streams mixed,
an ended stream resumed. -/
theorem test_framingDuty_broken :
    framingDuty [⟨1, .wpush 5#9⟩] = false ∧ framingDuty [⟨1, .wpush 5#9⟩, ⟨1, .wabort⟩] = false
      ∧ framingDuty [⟨1, .rfeed 5#8⟩] = false
      ∧ framingDuty [⟨1, .wpush 5#9⟩, ⟨2, .wpush 6#9⟩, ⟨1, .wfin⟩, ⟨2, .wfin⟩] = false
      ∧ framingDuty [⟨1, .wpush 5#9⟩, ⟨1, .wfin⟩, ⟨1, .wpush 6#9⟩, ⟨1, .wfin⟩] = false := by decide

/-- TruncatedStreamDecodesToItsStart: L1-1 less its last byte. -/
theorem witness_TruncatedStreamDecodesToItsStart :
    4 ≤ (encodedStream [0x000#9, 0x0BB#9, 0x0EC#9, 0x12B#9]).length := by decide

/-- HostDecodeOfEncodeIsSort (distinct numbers in the domain), HostEncodeDependsOnTheSetOnly. -/
theorem witness_host_numbers :
    (∀ x ∈ ([1, 300, 237, 188] : List Int), 1 ≤ x ∧ x ≤ 300)
      ∧ (∀ x : Int, x ∈ ([3, 1, 2, 1] : List Int) ↔ x ∈ ([1, 2, 3] : List Int)) :=
  ⟨by decide, fun x => by simp; omega⟩

/-- CommandsAppendTheStatedCounts. -/
theorem witness_CommandsAppendTheStatedCounts :
    (writerAt 0x7F#16 7#5).WriterInv ∧ (writerAt 0x7F#16 7#5).ReaderInv := by decide

/-- An implementation whose WOUT buffer of depth 2 holds one byte, with a two-byte WPUSH on the port. -/
abbrev heldExample : Buffered :=
  { core := { writerAt 0x7F#16 7#5 with wOut := [0x95#8], inputs := [.command 0x3FF#12] }, wTaken := 0, rTaken := 0 }

/-- HeldExactlyWhileOutputDoesNotFit, BuffersNeverExceedTheirDepth: held at depth 2, not held at depth 3. -/
theorem witness_backpressure :
    heldExample.held 2 = true ∧ heldExample.held 3 = false ∧ heldExample.core.Inv
      ∧ heldExample.wTaken ≤ heldExample.core.wOut.length ∧ heldExample.rTaken ≤ heldExample.core.rOut.length
      ∧ heldExample.wBuffer.length ≤ 2 ∧ heldExample.rBuffer.length ≤ 2
      ∧ heldExample.core.inputs = .command 0x3FF#12 :: [] ∧ (∃ t, step heldExample.core = .next t)
      ∧ (∃ b', bufferedStep 3 .advance heldExample = .next b') :=
  ⟨by decide, by decide, by decide, by decide, by decide, by decide, by decide, rfl, ⟨_, rfl⟩, ⟨_, rfl⟩⟩

/-- An implementation whose ROUT buffer holds one value, with an RFEED that completes a field on the port. -/
abbrev heldReaderExample : Buffered :=
  { core := { readerAt 1#16 1#5 with rOut := [512#10], inputs := [.command 0x8FF#12] }, wTaken := 0, rTaken := 0 }

/-- HeldExactlyWhileOutputDoesNotFit, BuffersNeverExceedTheirDepth, the ROUT side: held at depth 1, where the
step would append a value, and not held at depth 2. -/
theorem witness_backpressure_rout :
    heldReaderExample.held 1 = true ∧ heldReaderExample.held 2 = false ∧ heldReaderExample.core.Inv
      ∧ heldReaderExample.wTaken ≤ heldReaderExample.core.wOut.length
      ∧ heldReaderExample.rTaken ≤ heldReaderExample.core.rOut.length
      ∧ heldReaderExample.wBuffer.length ≤ 1 ∧ heldReaderExample.rBuffer.length ≤ 1
      ∧ heldReaderExample.core.inputs = .command 0x8FF#12 :: []
      ∧ (∃ t, step heldReaderExample.core = .next t ∧ t.rOut ≠ heldReaderExample.core.rOut
        ∧ 1 < t.rOut.length - heldReaderExample.rTaken) :=
  ⟨by decide, by decide, by decide, by decide, by decide, by decide, by decide, rfl, _, rfl, by decide, by decide⟩

/-- BackpressureChangesOnlyTiming: held, drained, run. -/
theorem witness_BackpressureChangesOnlyTiming :
    (∃ b', bufferedRun 2 [.advance, .consumeW, .advance] heldExample = .next b')
      ∧ BufferedMove.assertReset ∉ [BufferedMove.advance, .consumeW, .advance] := ⟨⟨_, rfl⟩, by decide⟩

/-- BackpressureChangesOnlyTiming: a run with reset asserted over the held word, which is then not executed. -/
theorem witness_backpressure_reset_over_held :
    ∃ b', bufferedRun 2 [.advance, .assertReset, .advance] heldExample = .next b'
      ∧ b'.core.wOut = [0x95#8] ∧ b'.core.wCnt = 0#5 := ⟨_, rfl, rfl, rfl⟩

end Sys2Proof.Tests
end

/-! SUPPORT. Legal words: the match/mask rows of 30_encoding.md R48, read part by part, against the decoder of R52. -/

namespace Sys2Proof

theorem commandOf_inj {op op' : BitVec 3} {opnd opnd' : BitVec 9} :
    commandOf op opnd = commandOf op' opnd' ↔ op = op' ∧ opnd = opnd' := by
  constructor
  · intro h
    exact ⟨by simpa using congrArg Command.op h, by simpa using congrArg Command.opnd h⟩
  · rintro ⟨rfl, rfl⟩
    rfl

theorem commandOf_and (op op' : BitVec 3) (opnd opnd' : BitVec 9) :
    commandOf op opnd &&& commandOf op' opnd' = commandOf (op &&& op') (opnd &&& opnd') :=
  BitVec.and_append

theorem OpcodeRow.matchesWord_commandOf (name : String) (p c op : BitVec 3) (q d opnd : BitVec 9) :
    OpcodeRow.matchesWord ⟨name, commandOf p q, commandOf c d⟩ (commandOf op opnd)
      = (decide (op &&& c = p) && decide (opnd &&& d = q)) := by
  simp only [OpcodeRow.matchesWord, commandOf_and, beq_eq_decide, commandOf_inj, Bool.decide_and]

/-- The opcode map with each word split into OP and OPND (R46). -/
theorem opcodeTable_eq_commandOf : opcodeTable =
    [ ⟨"NOP", commandOf 0#3 0#9, commandOf 7#3 511#9⟩,
      ⟨"WPUSH", commandOf 1#3 0#9, commandOf 7#3 0#9⟩,
      ⟨"WFIN", commandOf 2#3 0#9, commandOf 7#3 511#9⟩,
      ⟨"WABORT", commandOf 3#3 0#9, commandOf 7#3 511#9⟩,
      ⟨"RFEED", commandOf 4#3 0#9, commandOf 7#3 256#9⟩,
      ⟨"REND", commandOf 5#3 0#9, commandOf 7#3 511#9⟩ ] := by decide

theorem opnd_and_bit8_eq_zero (opnd : BitVec 9) : opnd &&& 256#9 = 0#9 ↔ opnd.getLsbD 8 = false := by
  revert opnd
  decide

@[simp] theorem isOk_ok (i : Instr) : (Except.ok i : Except DecodeReject Instr).isOk = true := rfl

@[simp] theorem isOk_error (e : DecodeReject) : (Except.error e : Except DecodeReject Instr).isOk = false := rfl

@[simp] theorem isOk_decodeN (i : Instr) (opnd : BitVec 9) : (decodeN i opnd).isOk = decide (opnd = 0#9) := by
  by_cases h : opnd = 0#9 <;> simp [decodeN, h]

@[simp] theorem isOk_decodeB8 (i : Byte → Instr) (opnd : BitVec 9) :
    (decodeB8 i opnd).isOk = !opnd.getLsbD 8 := by
  cases h : opnd.getLsbD 8 <;> simp [decodeB8, h, -BitVec.getLsbD_eq_getElem]

theorem op_cases : ∀ op : BitVec 3,
    op = 0#3 ∨ op = 1#3 ∨ op = 2#3 ∨ op = 3#3 ∨ op = 4#3 ∨ op = 5#3 ∨ op = 6#3 ∨ op = 7#3 := by decide

/-- A word is legal exactly when the decoder accepts it: opcode by opcode, the masked comparison of the row is
the operand check of the format. -/
theorem wellFormed_eq_isOk_decode (w : Command) : w.wellFormed = (decode w).isOk := by
  have hopnd (x : BitVec 9) : x &&& 511#9 = x := BitVec.and_allOnes
  have hop (x : BitVec 3) : x &&& 7#3 = x := BitVec.and_allOnes
  rw [← commandOf_op_opnd w]
  rcases op_cases w.op with h | h | h | h | h | h | h | h <;> rw [h] <;>
    simp [decode, Command.wellFormed, opcodeTable_eq_commandOf, OpcodeRow.matchesWord_commandOf, hop, hopnd,
      opnd_and_bit8_eq_zero]

theorem wellFormed_of_decode_ok {w : Command} {i : Instr} (h : decode w = .ok i) : w.wellFormed = true := by
  rw [wellFormed_eq_isOk_decode, h, isOk_ok]

theorem wellFormed_of_decode_error {w : Command} {e : DecodeReject} (h : decode w = .error e) :
    w.wellFormed = false := by
  rw [wellFormed_eq_isOk_decode, h, isOk_error]

end Sys2Proof

/-! SUPPORT. All that a command and a step can do, and from it what ILL is (10_state.md R20) and what reset leaves (R27). -/

namespace Sys2Proof.Machine

/-- Every command runs to completion in every state (R90). -/
theorem exec_completes (i : Instr) (s : State) : ∃ t, exec i s = .next t := by
  cases i with
  | nop => exact ⟨_, exec_nop_eq s⟩
  | wpush v => exact ⟨_, exec_wpush_eq v s⟩
  | wfin => exact ⟨_, exec_wfin_eq s⟩
  | wabort => exact ⟨_, exec_wabort_eq s⟩
  | rfeed b => exact ⟨_, exec_rfeed_eq b s⟩
  | rend => exact ⟨_, exec_rend_eq s⟩

theorem execWord_completes (w : Command) (s : State) : ∃ t, execWord w s = .next t := by
  match hd : decode w with
  | .ok i => rw [execWord_of_ok hd]; exact exec_completes i s
  | .error e => exact ⟨_, execWord_of_error hd s⟩

/-- A meaning neither reads nor writes ILL (R20). -/
theorem exec_with_ill {i : Instr} {s t : State} (b : Bool) (h : exec i s = .next t) :
    exec i { s with ill := b } = .next { t with ill := b } := by
  cases i with
  | nop => cases h; rfl
  | wpush v => rw [exec_wpush_eq] at h ⊢; cases h; rfl
  | wfin => rw [exec_wfin_eq] at h ⊢; cases h; rfl
  | wabort => cases h; rfl
  | rfeed b => rw [exec_rfeed_eq] at h ⊢; cases h; rfl
  | rend => cases h; rfl

/-- A word leaves ILL as it was, unless it is illegal; then it sets ILL (R20). -/
theorem execWord_ill {w : Command} {s t : State} (h : execWord w s = .next t) :
    t.ill = (s.ill || !w.wellFormed) := by
  match hd : decode w with
  | .ok i =>
    rw [execWord_of_ok hd] at h
    simp [(exec_common_frame h).1, wellFormed_of_decode_ok hd]
  | .error e =>
    rw [execWord_of_error hd] at h
    cases h
    simp [wellFormed_of_decode_error hd]

/-- All that a step to a next state can have done: nothing, take the reset input, or run the next word (R10, R44). -/
theorem step_cases {s t : State} (h : step s = .next t) :
    (s.inputs = [] ∧ t = s)
    ∨ (∃ w rest, s.inputs = .reset w :: rest ∧ t = { s with inputs := rest }.applyReset)
    ∨ (∃ w rest, s.inputs = .command w :: rest ∧ s.hasBeenReset = true
        ∧ execWord w { s with inputs := rest } = .next t) := by
  match hi : s.inputs with
  | [] =>
    rw [step_of_inputs_nil hi] at h
    cases h
    exact .inl ⟨rfl, rfl⟩
  | .reset w :: rest =>
    rw [step_of_inputs_cons hi] at h
    cases h
    exact .inr (.inl ⟨w, rest, rfl, rfl⟩)
  | .command w :: rest =>
    rw [step_of_inputs_cons hi] at h
    cases hr : s.hasBeenReset with
    | false => simp [runInput, hr] at h
    | true => exact .inr (.inr ⟨w, rest, rfl, rfl, by simpa [runInput, hr] using h⟩)

/-- A step on an illegal word ends with ILL 1. -/
theorem step_illegal_sets_ill {s t : State} {w : Command} {e : DecodeReject} {rest : List HostInput}
    (hi : s.inputs = .command w :: rest) (hd : decode w = .error e) (h : step s = .next t) : t.ill = true := by
  rcases step_cases h with ⟨hn, -⟩ | ⟨_, _, hn, -⟩ | ⟨w', rest', hn, -, hw⟩
  · simp [hi] at hn
  · simp [hi] at hn
  · obtain ⟨rfl, rfl⟩ : w = w' ∧ rest = rest' := by simpa [hi] using hn
    simp [execWord_ill hw, wellFormed_of_decode_error hd]

/-- Only a step on an illegal word raises ILL. -/
theorem step_raises_ill {s t : State} (h : step s = .next t) (hs : s.ill = false) (ht : t.ill = true) :
    ∃ w e rest, s.inputs = .command w :: rest ∧ decode w = .error e := by
  rcases step_cases h with ⟨-, rfl⟩ | ⟨_, _, -, rfl⟩ | ⟨w, rest, hi, -, hw⟩
  · simp [hs] at ht
  · simp at ht
  · match hd : decode w with
    | .error e => exact ⟨w, e, rest, hi, hd⟩
    | .ok i => simp [execWord_ill hw, hs, wellFormed_of_decode_ok hd] at ht

/-- Only a reset lowers ILL. -/
theorem step_lowers_ill {s t : State} (h : step s = .next t) (hs : s.ill = true) (ht : t.ill = false) :
    ∃ w rest, s.inputs = .reset w :: rest := by
  rcases step_cases h with ⟨-, rfl⟩ | ⟨w, rest, hi, -⟩ | ⟨w, rest, -, -, hw⟩
  · simp [hs] at ht
  · exact ⟨w, rest, hi⟩
  · simp [execWord_ill hw, hs] at ht

/-- Settles O14: ILL changes only at an illegal word (to 1) and at reset (to 0), by the cases of a step. -/
theorem illIsStickyAndNeverRead : Obligations.IllIsStickyAndNeverRead := by
  refine ⟨fun s t w e rest _ hi hd h => step_illegal_sets_ill hi hd h, fun s t => step_raises_ill,
    fun s t => step_lowers_ill, fun i s => ?_⟩
  obtain ⟨t, ht⟩ := exec_completes i s
  exact ⟨t, ht, (exec_common_frame ht).1, fun b => exec_with_ill b ht⟩

/-- STATUS is 0 where its three fields are (R19). -/
theorem status_eq_zero {s : State} (hw : s.wCnt = 0#5) (hr : s.rCnt = 0#5) (hill : s.ill = false) :
    s.status = 0x0000#16 := by
  simp [State.status, State.illBit, hw, hr, hill]

/-- Settles O9: the values of R27 after the reset input and at the start of a run. -/
theorem resetValues : Obligations.ResetValues := by
  constructor
  · intro s
    exact ⟨rfl, rfl, rfl, rfl, rfl, status_eq_zero rfl rfl rfl, rfl, rfl⟩
  · exact ⟨rfl, rfl, rfl, rfl, rfl, status_eq_zero rfl rfl rfl, rfl, rfl⟩

end Sys2Proof.Machine

/-! SUPPORT. The channels share no state (10_state.md R26): a state whose writer and reader are those of two other states
runs each word as the state of its channel does alone. -/

namespace Sys2Proof.Machine

/-- `s` with the writer of `uw`, the reader of `ur`, and ILL as given. -/
def State.joined (s uw ur : State) (ill : Bool) : State :=
  { s with
    wAcc := uw.wAcc, wCnt := uw.wCnt, wOut := uw.wOut
    rAcc := ur.rAcc, rCnt := ur.rCnt, rOut := ur.rOut
    ill := ill }

@[simp] theorem State.joined_hasBeenReset (s uw ur : State) (ill : Bool) :
    (s.joined uw ur ill).hasBeenReset = s.hasBeenReset := rfl

/-- A writer command depends on and changes the writer only (R61). -/
theorem exec_joined_of_writer {i : Instr} (hc : Instr.channel i = .writer) {uw tw : State} (h : exec i uw = .next tw)
    (s ur : State) (ill : Bool) : exec i (s.joined uw ur ill) = .next (s.joined tw ur ill) := by
  cases i with
  | wpush v => rw [exec_wpush_eq] at h ⊢; cases h; rfl
  | wfin => rw [exec_wfin_eq] at h ⊢; cases h; rfl
  | wabort => cases h; rfl
  | nop | rfeed _ | rend => cases hc

/-- A reader command depends on and changes the reader only (R70). -/
theorem exec_joined_of_reader {i : Instr} (hc : Instr.channel i = .reader) {ur tr : State} (h : exec i ur = .next tr)
    (s uw : State) (ill : Bool) : exec i (s.joined uw ur ill) = .next (s.joined uw tr ill) := by
  cases i with
  | rfeed b => rw [exec_rfeed_eq] at h ⊢; cases h; rfl
  | rend => cases h; rfl
  | nop | wpush _ | wfin | wabort => cases hc

/-- A command of neither channel does nothing (R79). -/
theorem exec_of_channel_none {i : Instr} (hc : Instr.channel i = .none) (s : State) : exec i s = .next s := by
  cases i with
  | nop => rfl
  | wpush _ | wfin | wabort | rfeed _ | rend => cases hc

theorem wordChannel_of_ok {w : Command} {i : Instr} (h : decode w = .ok i) : wordChannel w = Instr.channel i := by
  simp [wordChannel, h]

theorem wordChannel_of_error {w : Command} {e : DecodeReject} (h : decode w = .error e) :
    wordChannel w = .none := by
  simp [wordChannel, h]

/-- A word of a channel is the word of a command of that channel. -/
theorem exists_decode_ok_of_wordChannel {w : Command} {c : Channel} (h : wordChannel w = c) (hc : c ≠ .none) :
    ∃ i, decode w = .ok i ∧ Instr.channel i = c := by
  match hd : decode w with
  | .ok i => exact ⟨i, rfl, (wordChannel_of_ok hd).symm.trans h⟩
  | .error e => exact absurd (h.symm.trans (wordChannel_of_error hd)) hc

theorem wellFormed_of_wordChannel {w : Command} {c : Channel} (h : wordChannel w = c) (hc : c ≠ .none) :
    w.wellFormed = true := by
  obtain ⟨i, hd, -⟩ := exists_decode_ok_of_wordChannel h hc
  exact wellFormed_of_decode_ok hd

theorem execWord_joined_of_writer {w : Command} (hc : wordChannel w = .writer) {uw tw : State}
    (h : execWord w uw = .next tw) (s ur : State) (ill : Bool) :
    execWord w (s.joined uw ur ill) = .next (s.joined tw ur ill) := by
  obtain ⟨i, hd, hi⟩ := exists_decode_ok_of_wordChannel hc (by simp)
  rw [execWord_of_ok hd] at h ⊢
  exact exec_joined_of_writer hi h s ur ill

theorem execWord_joined_of_reader {w : Command} (hc : wordChannel w = .reader) {ur tr : State}
    (h : execWord w ur = .next tr) (s uw : State) (ill : Bool) :
    execWord w (s.joined uw ur ill) = .next (s.joined uw tr ill) := by
  obtain ⟨i, hd, hi⟩ := exists_decode_ok_of_wordChannel hc (by simp)
  rw [execWord_of_ok hd] at h ⊢
  exact exec_joined_of_reader hi h s uw ill

/-- A word of neither channel, NOP or illegal, changes ILL at most. -/
theorem execWord_of_wordChannel_none {w : Command} (hc : wordChannel w = .none) (s : State) :
    execWord w s = .next { s with ill := s.ill || !w.wellFormed } := by
  match hd : decode w with
  | .ok i =>
    rw [execWord_of_ok hd, exec_of_channel_none ((wordChannel_of_ok hd).symm.trans hc)]
    simp [wellFormed_of_decode_ok hd]
  | .error e =>
    rw [execWord_of_error hd]
    simp [wellFormed_of_decode_error hd, State.raiseIllegalCommand]

/-- A run over any words from joined states is the run of the writer's words on the one, joined with the run
of the reader's words on the other. -/
theorem driveWords_joined {s : State} (hs : s.hasBeenReset = true) (ws : List Command) :
    ∀ (uw ur : State) (ill : Bool), uw.hasBeenReset = true → ur.hasBeenReset = true →
      ∃ tw tr, driveWords (ws.filter (fun w => wordChannel w = .writer)) uw = .next tw
        ∧ driveWords (ws.filter (fun w => wordChannel w = .reader)) ur = .next tr
        ∧ driveWords ws (s.joined uw ur ill)
          = .next (s.joined tw tr (ill || ws.any (fun w => !w.wellFormed))) := by
  induction ws with
  | nil =>
    intro uw ur ill _ _
    exact ⟨uw, ur, rfl, rfl, by simp⟩
  | cons w ws ih =>
    intro uw ur ill hw hr
    cases hc : wordChannel w with
    | none =>
      have hj : execWord w (s.joined uw ur ill) = .next (s.joined uw ur (ill || !w.wellFormed)) :=
        execWord_of_wordChannel_none hc _
      obtain ⟨tw, tr, htw, htr, ht⟩ := ih uw ur (ill || !w.wellFormed) hw hr
      refine ⟨tw, tr, by simpa [hc] using htw, by simpa [hc] using htr, ?_⟩
      rw [driveWords_cons ws (by simpa) hj, ht, List.any_cons, Bool.or_assoc]
    | writer =>
      obtain ⟨uw', hx⟩ := execWord_completes w uw
      obtain ⟨tw, tr, htw, htr, ht⟩ := ih uw' ur ill ((execWord_hasBeenReset hx).1.trans hw) hr
      refine ⟨tw, tr, ?_, by simpa [hc] using htr, ?_⟩
      · rw [List.filter_cons_of_pos (by simpa using hc), driveWords_cons _ hw hx, htw]
      · rw [driveWords_cons ws (by simpa) (execWord_joined_of_writer hc hx s ur ill), ht]
        simp [wellFormed_of_wordChannel hc]
    | reader =>
      obtain ⟨ur', hx⟩ := execWord_completes w ur
      obtain ⟨tw, tr, htw, htr, ht⟩ := ih uw ur' ill hw ((execWord_hasBeenReset hx).1.trans hr)
      refine ⟨tw, tr, by simpa [hc] using htw, ?_, ?_⟩
      · rw [List.filter_cons_of_pos (by simpa using hc), driveWords_cons _ hr hx, htr]
      · rw [driveWords_cons ws (by simpa) (execWord_joined_of_reader hc hx s uw ill), ht]
        simp [wellFormed_of_wordChannel hc]

/-- Settles O34: `driveWords_joined` for a state joined with itself. -/
theorem interleavedChannelsDoNotInterfere : Obligations.InterleavedChannelsDoNotInterfere := by
  intro ws s hs
  obtain ⟨tw, tr, htw, htr, ht⟩ := driveWords_joined hs ws s s s.ill hs hs
  exact ⟨_, tw, tr, ht, htw, htr, rfl⟩

end Sys2Proof.Machine

/-! SUPPORT. The encoder against the decoder (30_encoding.md R52), and a run over commands by its first command. -/

namespace Sys2Proof

theorem decodeB8_setWidth (i : Byte → Instr) (b : Byte) : decodeB8 i (b.setWidth 9) = .ok (i b) := by
  have hbit : (b.setWidth 9).getLsbD 8 = false := by simp
  have hbyte : (b.setWidth 9).extractLsb' 0 8 = b := by
    apply BitVec.eq_of_getLsbD_eq
    intro k hk
    simp [hk, show k < 9 by omega]
  rw [decodeB8, hbit, hbyte]
  rfl

@[simp] theorem decode_encode (i : Instr) : decode (encode i) = .ok i := by
  cases i with
  | nop | wfin | wabort | rend => decide
  | wpush v => simp [encode, decode]
  | rfeed b => simpa [encode, decode] using decodeB8_setWidth .rfeed b

end Sys2Proof

namespace Sys2Proof.Machine

theorem execWord_encode (i : Instr) (s : State) : execWord (encode i) s = exec i s :=
  execWord_of_ok (decode_encode i) s

@[simp] theorem drive_nil (s : State) : drive [] s = .next s := rfl

/-- A run over commands is the first command, then the run over the rest. -/
theorem drive_cons {i : Instr} {s t : State} (is : List Instr) (hr : s.hasBeenReset = true)
    (h : exec i s = .next t) : drive (i :: is) s = drive is t :=
  driveWords_cons (is.map encode) hr ((execWord_encode i s).trans h)

/-- A run over commands, split in two. -/
theorem drive_append {is : List Instr} {s t : State} (js : List Instr) (hr : s.hasBeenReset = true)
    (h : drive is s = .next t) : drive (is ++ js) s = drive js t := by
  rw [drive, List.map_append]
  exact driveWords_append (js.map encode) hr h fun w _ u => execWord_completes w u

end Sys2Proof.Machine

/-! SUPPORT. The logical bit-stream of a writer stream (20_memory.md R31, R32): its bits by position, its padding, and
the stream laws of WFIN and of a row of WPUSH commands, from any writer. -/

namespace Sys2Proof.Machine

open BitStream

/-- Settles O38: the positions and the framing formula of a stream of fields, whatever bits follow. -/
theorem fieldBitsInStreamOrder : Obligations.FieldBitsInStreamOrder := by
  intro fs i h
  exact ⟨fun t ht => getElem?_flatMap_bitsOf fs _ h ht, fieldAt_flatMap fs _ h⟩

/-- Whole bytes before a bit-stream leave its padding as it is. -/
theorem padded_flatMap_append (bs : List Byte) (p : List Bool) :
    padded (bs.flatMap bitsOf ++ p) = bs.flatMap bitsOf ++ padded p := by
  have hlen : padLength (bs.flatMap bitsOf ++ p).length = padLength p.length := by
    simp only [padLength, List.length_append, length_flatMap_bitsOf]
    omega
  rw [padded, padded, hlen, List.append_assoc]

theorem bytesOf_flatMap_bitsOf (bs : List Byte) : bytesOf (bs.flatMap bitsOf) = bs := by
  simpa using bytesOf_flatMap bs (rest := []) (by simp)

/-- The byte of WFIN (R64): the pending bits at its high end, zero bits below. -/
theorem bitsOf_byteShiftedUp {c : Nat} (h : c ≤ 8) (a : Acc) :
    bitsOf (byteShiftedUp (8 - c) a) = lowBits c a ++ List.replicate (8 - c) false := by
  have hsplit := lowBits_add c (8 - c) (byteShiftedUp (8 - c) a)
  rw [show c + (8 - c) = 8 by omega] at hsplit
  rw [bitsOf_eq_lowBits, hsplit]
  congr 1
  · apply lowBits_congr
    intro i hi
    simp [byteShiftedUp, show 8 - c + i < 8 by omega]
  · rw [List.eq_replicate_iff]
    refine ⟨length_lowBits _ _, fun b hb => ?_⟩
    obtain ⟨i, hi, rfl⟩ := List.mem_map.mp hb
    have hlow : 8 - c - 1 - i < 8 - c := by
      have := List.mem_range.mp hi
      omega
    simp [byteShiftedUp, hlow]

/-- WFIN as a bit-stream law: the emitted bytes are the pending bits and their padding (R31, R64). -/
theorem wfin_pads_pending_bits (s : State) (h : s.wCnt.toNat ≤ 7) :
    ∃ out : List Byte, exec .wfin s = .next { s with wAcc := 0#16, wCnt := 0#5, wOut := s.wOut ++ out }
      ∧ out.flatMap bitsOf = padded s.writerPending := by
  refine ⟨_, exec_wfin_eq s, ?_⟩
  have hpad : padLength s.wCnt.toNat = if 0 < s.wCnt.toNat then 8 - s.wCnt.toNat else 0 := by
    rw [padLength]
    split <;> omega
  rw [padded, length_writerPending s (by omega), writerPending_eq s (by omega), hpad]
  split
  · simpa using bitsOf_byteShiftedUp (by omega) s.wAcc
  · simp [show s.wCnt.toNat = 0 by omega]

/-- A row of WPUSH commands as a bit-stream law: pending bits and field bits in, emitted bytes and fewer than 8
pending bits out. -/
theorem wpushes_conserve_bits (fs : List Field) : ∀ s : State, s.hasBeenReset = true → s.wCnt.toNat ≤ 7 →
    ∃ (out : List Byte) (t : State), drive (fs.map .wpush) s = .next t
      ∧ t = { s with wAcc := t.wAcc, wCnt := t.wCnt, wOut := s.wOut ++ out }
      ∧ t.wCnt.toNat ≤ 7
      ∧ s.writerPending ++ fieldBits fs = out.flatMap bitsOf ++ t.writerPending := by
  induction fs with
  | nil =>
    intro s _ hc
    exact ⟨[], s, rfl, by simp, hc, by simp [fieldBits]⟩
  | cons v fs ih =>
    intro s hr hc
    obtain ⟨out, u, hexec, hu, hcnt, hbits⟩ := wpush_conserves_bits v s hc
    have hru : u.hasBeenReset = true := (exec_common_frame hexec).2.2.trans hr
    obtain ⟨out', t, hrun, ht, hle, hbits'⟩ := ih u hru (by omega)
    refine ⟨out ++ out', t, ?_, ?_, hle, ?_⟩
    · rw [List.map_cons, drive_cons _ hr hexec, hrun]
    · rw [ht, hu]
      simp
    · calc s.writerPending ++ fieldBits (v :: fs)
          = (s.writerPending ++ bitsOf v) ++ fieldBits fs := by simp [fieldBits]
        _ = out.flatMap bitsOf ++ (u.writerPending ++ fieldBits fs) := by rw [hbits, List.append_assoc]
        _ = (out ++ out').flatMap bitsOf ++ t.writerPending := by
          rw [hbits', List.flatMap_append, List.append_assoc]

/-- A writer stream from any writer: its bytes are the bits pending before it, the fields' bits and the padding
(R31, R92). -/
theorem drive_writerStream (fs : List Field) {s : State} (hr : s.hasBeenReset = true) (hc : s.wCnt.toNat ≤ 7) :
    drive (fs.map .wpush ++ [.wfin]) s = .next { s with
      wAcc := 0#16, wCnt := 0#5, wOut := s.wOut ++ bytesOf (padded (s.writerPending ++ fieldBits fs)) } := by
  obtain ⟨out, t, hrun, ht, hle, hbits⟩ := wpushes_conserve_bits fs s hr hc
  obtain ⟨last, hfin, hlast⟩ := wfin_pads_pending_bits t hle
  have hrt : t.hasBeenReset = true := by rw [ht]; exact hr
  have hbytes : bytesOf (padded (s.writerPending ++ fieldBits fs)) = out ++ last := by
    rw [hbits, padded_flatMap_append, ← hlast, ← List.flatMap_append, bytesOf_flatMap_bitsOf]
  rw [drive_append _ hr hrun, drive_cons _ hrt hfin, drive_nil, hbytes, ht, List.append_assoc]

theorem writerPending_of_clean {s : State} (h : s.WriterClean) : s.writerPending = [] := by
  have hc : s.wCnt.toNat = 0 := by simp [h.1]
  rw [writerPending_eq s (by omega), hc, lowBits_zero]

/-- Settles O44: the writer stream law with no bit pending before it. -/
theorem writerContentLaw : Obligations.WriterContentLaw := by
  intro fs s hr hclean
  obtain ⟨hcnt, hacc⟩ := hclean
  rw [drive_writerStream fs hr (by simp [hcnt]), writerPending_of_clean ⟨hcnt, hacc⟩, List.nil_append, ← hcnt, ← hacc]
  rfl

end Sys2Proof.Machine

/-! SUPPORT. Illegal words (30_encoding.md R50): the condition on OP and OPND, the ranges it comes to, and their
number. -/

namespace Sys2Proof

theorem exists_decode_error_iff (w : Command) : (∃ e, decode w = .error e) ↔ (decode w).isOk = false := by
  cases decode w <;> simp

/-- R50's condition: a reserved opcode, or a set bit that the format of R47 reserves. Opcode by opcode, the operand check of
the format fails exactly so. -/
theorem exists_decode_error_iff_fields (w : Command) : (∃ e, decode w = .error e) ↔
    (w.op = 0b110#3 ∨ w.op = 0b111#3
      ∨ ((w.op = 0b000#3 ∨ w.op = 0b010#3 ∨ w.op = 0b011#3 ∨ w.op = 0b101#3) ∧ w.opnd ≠ 0#9)
      ∨ (w.op = 0b100#3 ∧ w.opnd.getLsbD 8 = true)) := by
  rw [exists_decode_error_iff]
  rcases op_cases w.op with h | h | h | h | h | h | h | h <;> simp [decode, h, -BitVec.getLsbD_eq_getElem]

theorem opnd_bit8_iff_le_toNat (opnd : BitVec 9) : opnd.getLsbD 8 = true ↔ 256 ≤ opnd.toNat := by
  have hmsb : opnd.getLsbD 8 = opnd.msb := (BitVec.msb_eq_getLsbD_last opnd).symm
  rw [hmsb, BitVec.msb_eq_decide, decide_eq_true_iff]

/-- The numbers of the illegal words, as R50 lists them. -/
abbrev InIllegalRange (k : Nat) : Prop :=
  0x001 ≤ k ∧ k ≤ 0x1FF ∨ 0x401 ≤ k ∧ k ≤ 0x5FF ∨ 0x601 ≤ k ∧ k ≤ 0x7FF ∨ 0x900 ≤ k ∧ k ≤ 0x9FF
    ∨ 0xA01 ≤ k ∧ k ≤ 0xBFF ∨ 0xC00 ≤ k

/-- R50's condition comes to R50's ranges: opcode `o` holds the numbers `512 o` to `512 o + 511`. -/
theorem exists_decode_error_iff_range (w : Command) : (∃ e, decode w = .error e) ↔ InIllegalRange w.toNat := by
  have hnum : w.toNat = w.op.toNat * 512 + w.opnd.toNat := by rw [← toNat_commandOf, commandOf_op_opnd]
  have hlt := w.opnd.isLt
  rw [exists_decode_error_iff_fields, opnd_bit8_iff_le_toNat, ne_eq, ← BitVec.toNat_inj (x := w.opnd), hnum]
  generalize w.opnd.toNat = n at hlt ⊢
  rcases op_cases w.op with h | h | h | h | h | h | h | h <;> simp [h] <;> omega

/-- A table word decodes to no command exactly in R50's ranges. -/
theorem isNone_decodeTableWord_iff (nbits : Nat) {k : Nat} (h : k < 4096) :
    (decodeTableWord nbits k).isNone = true ↔ InIllegalRange k := by
  have hk : (BitVec.ofNat 12 k).toNat = k := Nat.mod_eq_of_lt h
  have hiff := exists_decode_error_iff_range (BitVec.ofNat 12 k)
  rw [hk, exists_decode_error_iff] at hiff
  rw [← hiff, decodeTableWord, if_pos h]
  cases decode (BitVec.ofNat 12 k) <;> simp [Except.toOption]

/-- A block of numbers with the property adds its length to the count. -/
theorem count_eq_add_of_forall {p : Nat → Prop} [DecidablePred p] {a b : Nat} (hab : a ≤ b)
    (h : ∀ k, a ≤ k → k < b → p k) : Nat.count p b = Nat.count p a + (b - a) := by
  obtain ⟨n, rfl⟩ := Nat.exists_eq_add_of_le hab
  have hall : ∀ k < n, p (a + k) := fun k hk => h _ (by omega) (by omega)
  rw [Nat.count_add, Nat.count_of_forall hall, Nat.add_sub_cancel_left]

/-- A block of numbers without the property adds nothing to the count. -/
theorem count_eq_of_forall_not {p : Nat → Prop} [DecidablePred p] {a b : Nat} (hab : a ≤ b)
    (h : ∀ k, a ≤ k → k < b → ¬ p k) : Nat.count p b = Nat.count p a := by
  obtain ⟨n, rfl⟩ := Nat.exists_eq_add_of_le hab
  have hnone : ∀ k < n, ¬ p (a + k) := fun k hk => h _ (by omega) (by omega)
  rw [Nat.count_add, Nat.count_of_forall_not hnone, Nat.add_zero]

/-- R50's ranges hold 3324 numbers below 4096: the ranges and the gaps between them, from the highest down. -/
theorem count_inIllegalRange : Nat.count InIllegalRange 4096 = 3324 := by
  rw [count_eq_add_of_forall (a := 0xA01) (by omega) (by omega),
    count_eq_of_forall_not (a := 0xA00) (by omega) (by omega),
    count_eq_add_of_forall (a := 0x900) (by omega) (by omega),
    count_eq_of_forall_not (a := 0x800) (by omega) (by omega),
    count_eq_add_of_forall (a := 0x601) (by omega) (by omega),
    count_eq_of_forall_not (a := 0x600) (by omega) (by omega),
    count_eq_add_of_forall (a := 0x401) (by omega) (by omega),
    count_eq_of_forall_not (a := 0x200) (by omega) (by omega),
    count_eq_add_of_forall (a := 0x001) (by omega) (by omega),
    count_eq_of_forall_not (a := 0) (by omega) (by omega), Nat.count_zero]

theorem length_filter_isNone_decodeTableWord :
    ((List.range 4096).filter (fun k => (decodeTableWord 16 k).isNone)).length = 3324 := by
  rw [← count_inIllegalRange, Nat.count, ← List.countP_eq_length_filter]
  apply List.countP_congr
  intro k hk
  rw [isNone_decodeTableWord_iff 16 (List.mem_range.mp hk), decide_eq_true_iff]

/-- Settles O4: R50's condition opcode by opcode, its ranges as numbers, the one effect, and the sum of the ranges. -/
theorem illegalWordsAreExactlyThese : Obligations.IllegalWordsAreExactlyThese :=
  ⟨exists_decode_error_iff_fields, exists_decode_error_iff_range, fun _ _ s h => Machine.execWord_of_error h s,
    length_filter_isNone_decodeTableWord⟩

end Sys2Proof

/-! SUPPORT. The pseudo-instructions of the assembler (30_encoding.md R54): a statement in range is expanded, any other
is refused. -/

namespace Sys2Proof.Machine.Assembler

theorem assembleStmt_of_wellFormed {st : AsmStmt} (h : st.wellFormed = true) : assembleStmt st = .ok st.expand := by
  rw [assembleStmt, if_pos h]

theorem assembleStmt_of_illFormed {st : AsmStmt} (h : st.wellFormed = false) :
    assembleStmt st = .error .badOperand := by
  simp [assembleStmt, h]

/-- PUSHN applies the -1: its range is that of WPUSH, moved up by one. -/
theorem assembleStmt_pushn {n : Nat} (h1 : 1 ≤ n) (h2 : n ≤ 512) :
    assembleStmt (.pushn n) = assembleStmt (.wpush (n - 1)) := by
  rw [assembleStmt_of_wellFormed (by simp [AsmStmt.wellFormed, h1, h2]),
    assembleStmt_of_wellFormed (by simpa [AsmStmt.wellFormed] using by omega)]
  rfl

theorem assembleStmt_pushn_out_of_range {n : Nat} (h : n = 0 ∨ 512 < n) :
    assembleStmt (.pushn n) = .error .badOperand :=
  assembleStmt_of_illFormed (by simpa [AsmStmt.wellFormed] using by omega)

/-- The operand of a field is in WPUSH's range. -/
theorem assembleStmt_wstream (fs : List Field) :
    assembleStmt (.wstream (fs.map BitVec.toNat)) = .ok (fs.map .wpush ++ [.wfin]) := by
  have hwf : (AsmStmt.wstream (fs.map BitVec.toNat)).wellFormed = true := by
    simp only [AsmStmt.wellFormed, List.all_map, List.all_eq_true]
    intro v _
    simpa using Nat.le_of_lt_succ v.isLt
  rw [assembleStmt_of_wellFormed hwf]
  simp [AsmStmt.expand]

/-- The operand of a byte is in RFEED's range. -/
theorem assembleStmt_rstream (bs : List Byte) :
    assembleStmt (.rstream (bs.map BitVec.toNat)) = .ok (bs.map .rfeed ++ [.rend]) := by
  have hwf : (AsmStmt.rstream (bs.map BitVec.toNat)).wellFormed = true := by
    simp only [AsmStmt.wellFormed, List.all_map, List.all_eq_true]
    intro b _
    simpa using Nat.le_of_lt_succ b.isLt
  rw [assembleStmt_of_wellFormed hwf]
  simp [AsmStmt.expand]

/-- Settles O8: each expansion with its operand range, and the refusal of every operand outside the ranges. -/
theorem pseudoInstructionExpansions : Obligations.PseudoInstructionExpansions := by
  refine ⟨fun _ => assembleStmt_pushn, fun _ => assembleStmt_pushn_out_of_range, rfl, assembleStmt_wstream,
    assembleStmt_rstream, fun v h => ?_, fun b h => ?_⟩
  · exact assembleStmt_of_illFormed (by simpa [AsmStmt.wellFormed] using h)
  · exact assembleStmt_of_illFormed (by simpa [AsmStmt.wellFormed] using h)

end Sys2Proof.Machine.Assembler

/-! SUPPORT. The writer commands one by one (40_writer.md R61, R62, R64, R65): the result as numbers, the word, and that
only the writer is read and written. -/

namespace Sys2Proof.Machine

/-- The bits WPUSH keeps, as a number (R62). -/
theorem ofNat_mod_two_pow_eq_and_mask {k : Nat} (hk : k ≤ 16) (a : Acc) :
    BitVec.ofNat 16 (a.toNat % 2 ^ k) = a &&& mask k := by
  rw [← toNat_and_mask hk, BitVec.ofNat_toNat, BitVec.setWidth_eq]

/-- A byte WPUSH emits, as a number (R62). -/
theorem ofNat_div_mod_eq_byteAbove (k : Nat) (a : Acc) : BitVec.ofNat 8 (a.toNat / 2 ^ k % 256) = byteAbove k a := by
  rw [← toNat_byteAbove, BitVec.ofNat_toNat, BitVec.setWidth_eq]

/-- The byte of WFIN, as a number; the conversion drops what is shifted past the byte (R64). -/
theorem ofNat_mul_eq_byteShiftedUp (k : Nat) (a : Acc) : BitVec.ofNat 8 (a.toNat * 2 ^ k) = byteShiftedUp k a := by
  apply BitVec.eq_of_toNat_eq
  rw [toNat_byteShiftedUp, BitVec.toNat_ofNat]

/-- The writer invariant bounds W_ACC below the largest count's power (R23). -/
theorem State.WriterInv.toNat_wAcc_lt {s : State} (h : s.WriterInv) : s.wAcc.toNat < 2 ^ 7 := by
  obtain ⟨hcnt, hacc⟩ := h
  exact hacc.trans_le (Nat.pow_le_pow_right (by decide) hcnt)

/-- Settles O24: the combine step is the number `p`, whose bytes and low bits the loop gives. -/
theorem wpushPacksTheField : Obligations.WpushPacksTheField := by
  intro v s h n p
  have hword : (encode (.wpush v)).toNat = 0x200 + v.toNat := toNat_commandOf 0b001#3 v
  have hp : p = ((s.wAcc <<< 9) ||| zextField v).toNat := (toNat_pushed s.wAcc v h.toNat_wAcc_lt).symm
  refine ⟨hword, ?_⟩
  rw [exec_wpush_eq, hp, ofNat_mod_two_pow_eq_and_mask (by omega)]
  simp only [ofNat_div_mod_eq_byteAbove, n]

/-- Settles O26: WFIN's closed form with its byte as a number. -/
theorem wfinPadsAndClears : Obligations.WfinPadsAndClears := by
  refine ⟨by decide, fun s _ => ?_⟩
  rw [exec_wfin_eq, ofNat_mul_eq_byteShiftedUp]
  by_cases hc : s.wCnt = 0#5
  · simp [hc]
  · have hpos : 0 < s.wCnt.toNat := Nat.pos_of_ne_zero fun h0 => hc (BitVec.eq_of_toNat_eq h0)
    rw [if_pos hpos, if_neg hc]

/-- Settles O27: WABORT's closed form and its word. -/
theorem wabortDiscardsPendingBits : Obligations.WabortDiscardsPendingBits :=
  ⟨by decide, exec_wabort_eq⟩

/-- Settles O32: the closed form of each command gives its results from W_ACC and W_CNT alone. -/
theorem writerCommandsTouchOnlyTheWriter : Obligations.WriterCommandsTouchOnlyTheWriter := by
  intro i hi a n
  obtain rfl | rfl | ⟨v, rfl⟩ := hi
  · refine ⟨0#16, 0#5, if 0 < n.toNat then [byteShiftedUp (8 - n.toNat) a] else [], fun s hacc hcnt => ?_⟩
    rw [exec_wfin_eq, hacc, hcnt]
  · refine ⟨0#16, 0#5, [], fun s _ _ => ?_⟩
    rw [exec_wabort_eq, List.append_nil]
  · refine ⟨((a <<< 9) ||| zextField v) &&& mask ((n.toNat + 9) % 8), BitVec.ofNat 5 ((n.toNat + 9) % 8),
      (List.range ((n.toNat + 9) / 8)).map
        (fun j => byteAbove (n.toNat + 9 - 8 * (j + 1)) ((a <<< 9) ||| zextField v)), fun s hacc hcnt => ?_⟩
    rw [exec_wpush_eq, hacc, hcnt]

end Sys2Proof.Machine

/-! SUPPORT. The reader commands one by one (41_reader.md R70, R71, R73, R74): the result as numbers, the word, and that
only the reader is read and written. -/

namespace Sys2Proof.Machine

/-- A value RFEED emits, as a number (R71). -/
theorem ofNat_div_mod_succ_eq_valueOf (k : Nat) (a : Acc) :
    BitVec.ofNat 10 (a.toNat / 2 ^ k % 512 + 1) = valueOf (fieldAbove k a) := by
  rw [← toNat_fieldAbove, ← toNat_valueOf, BitVec.ofNat_toNat, BitVec.setWidth_eq]

/-- The reader invariant bounds R_ACC below the largest count's power (R24). -/
theorem State.ReaderInv.toNat_rAcc_lt {s : State} (h : s.ReaderInv) : s.rAcc.toNat < 2 ^ 8 := by
  obtain ⟨hcnt, hacc⟩ := h
  exact hacc.trans_le (Nat.pow_le_pow_right (by decide) hcnt)

theorem and_mask_of_toNat_lt {k : Nat} (hk : k ≤ 16) {a : Acc} (h : a.toNat < 2 ^ k) : a &&& mask k = a := by
  rw [← ofNat_mod_two_pow_eq_and_mask hk, Nat.mod_eq_of_lt h, BitVec.ofNat_toNat, BitVec.setWidth_eq]

theorem toNat_encode_rfeed (b : Byte) : (encode (.rfeed b)).toNat = 0x800 + b.toNat := by
  have hopnd : (b.setWidth 9).toNat = b.toNat := BitVec.toNat_setWidth_of_le (by decide)
  rw [encode, toNat_commandOf, hopnd]
  rfl

/-- RFEED on an empty reader: 8 bits are no field, the byte waits in R_ACC (R71). -/
theorem exec_rfeed_of_rCnt_eq_zero (b : Byte) {s : State} (h : s.rCnt.toNat = 0) :
    exec (.rfeed b) s = .next { s with rAcc := (s.rAcc <<< 8) ||| zextByte b, rCnt := 8#5 } := by
  rw [exec_rfeed_eq, h]
  simp

/-- RFEED on 1 to 8 pending bits: one field comes out, one bit fewer stays (R71). -/
theorem exec_rfeed_of_pending (b : Byte) {s : State} (h1 : 1 ≤ s.rCnt.toNat) (h8 : s.rCnt.toNat ≤ 8) :
    exec (.rfeed b) s = .next { s with
      rAcc := ((s.rAcc <<< 8) ||| zextByte b) &&& mask (s.rCnt.toNat - 1)
      rCnt := BitVec.ofNat 5 (s.rCnt.toNat - 1)
      rOut := s.rOut ++ [valueOf (fieldAbove (s.rCnt.toNat - 1) ((s.rAcc <<< 8) ||| zextByte b))] } := by
  have hdiv : (s.rCnt.toNat + 8) / 9 = 1 := by omega
  have hmod : (s.rCnt.toNat + 8) % 9 = s.rCnt.toNat - 1 := by omega
  rw [exec_rfeed_eq, if_neg (by omega), hdiv, hmod]
  simp

/-- Settles O28: the combine step is the number `p`; an empty reader keeps it whole, any other gives its
highest field. -/
theorem rfeedExtractsTheField : Obligations.RfeedExtractsTheField := by
  intro b s h n p
  have hp : p = ((s.rAcc <<< 8) ||| zextByte b).toNat := (toNat_fed s.rAcc b h.toNat_rAcc_lt).symm
  refine ⟨toNat_encode_rfeed b, ?_⟩
  rw [hp, ofNat_mod_two_pow_eq_and_mask (by omega), ofNat_div_mod_succ_eq_valueOf]
  obtain ⟨hcnt, hacc⟩ := h
  by_cases h0 : s.rCnt.toNat = 0
  · have hlt : ((s.rAcc <<< 8) ||| zextByte b).toNat < 2 ^ 8 := by
      have hb := b.isLt
      rw [h0] at hacc
      omega
    have hn : n = 8 := by omega
    rw [exec_rfeed_of_rCnt_eq_zero b h0, hn, if_pos (by decide), and_mask_of_toNat_lt (by decide) hlt, List.append_nil]
  · have hmod : n % 9 = s.rCnt.toNat - 1 := by omega
    have hsub : n - 9 = s.rCnt.toNat - 1 := by omega
    rw [exec_rfeed_of_pending b (by omega) hcnt, hmod, hsub, if_neg (by omega)]

/-- A reader with one bit pending, the highest bit of the field. -/
def State.withHighBitPending (f : Field) : State :=
  { State.reset with rAcc := BitVec.ofNat 16 (f.toNat / 256), rCnt := 1#5 }

theorem State.withHighBitPending_rAcc (f : Field) : (State.withHighBitPending f).rAcc.toNat = f.toNat / 256 := by
  have hf := f.isLt
  exact Nat.mod_eq_of_lt (by omega)

theorem State.withHighBitPending_rCnt (f : Field) : (State.withHighBitPending f).rCnt.toNat = 1 := rfl

theorem State.withHighBitPending_readerInv (f : Field) : (State.withHighBitPending f).ReaderInv := by
  have hf := f.isLt
  rw [State.ReaderInv, withHighBitPending_rAcc, withHighBitPending_rCnt]
  omega

/-- With its highest bit pending and its low byte fed, a field comes out whole, plus 1 (R73). -/
theorem exists_rfeed_emits (f : Field) : ∃ (b : Byte) (s t : State), s.ReaderInv ∧ exec (.rfeed b) s = .next t
    ∧ t.rOut = s.rOut ++ [BitVec.ofNat 10 (f.toNat + 1)] := by
  have hinv := State.withHighBitPending_readerInv f
  refine ⟨f.setWidth 8, _, _, hinv, (rfeedExtractsTheField (f.setWidth 8) _ hinv).2, ?_⟩
  have hp : f.toNat / 256 * 256 + (f.setWidth 8).toNat = f.toNat := by
    rw [BitVec.toNat_setWidth]
    omega
  simp only [State.withHighBitPending_rAcc, State.withHighBitPending_rCnt, hp]
  simp [Nat.mod_eq_of_lt f.isLt]

/-- Settles O30: the closed form of RFEED appends values of fields only, and every field comes out. -/
theorem readerValuesAreFieldPlusOne : Obligations.ReaderValuesAreFieldPlusOne := by
  refine ⟨fun b s => ⟨_, _, exec_rfeed_eq b s, rfl, fun v hv => ?_⟩, exists_rfeed_emits⟩
  obtain ⟨j, -, rfl⟩ := List.mem_map.mp hv
  refine ⟨_, toNat_valueOf _, ?_⟩
  rw [toNat_valueOf]
  omega

/-- Settles O31: REND's closed form, its word and that of RABORT. -/
theorem rendDiscardsTrailingBits : Obligations.RendDiscardsTrailingBits :=
  ⟨by decide, Assembler.assembleStmt_of_wellFormed rfl, exec_rend_eq⟩

/-- Settles O33: the closed form of each command gives its results from R_ACC and R_CNT alone. -/
theorem readerCommandsTouchOnlyTheReader : Obligations.ReaderCommandsTouchOnlyTheReader := by
  intro i hi a n
  obtain rfl | ⟨b, rfl⟩ := hi
  · refine ⟨0#16, 0#5, [], fun s _ _ => ?_⟩
    rw [exec_rend_eq, List.append_nil]
  · refine ⟨if n.toNat + 8 < 9 then (a <<< 8) ||| zextByte b
        else ((a <<< 8) ||| zextByte b) &&& mask ((n.toNat + 8) % 9),
      BitVec.ofNat 5 ((n.toNat + 8) % 9),
      (List.range ((n.toNat + 8) / 9)).map
        (fun j => valueOf (fieldAbove (n.toNat + 8 - 9 * (j + 1)) ((a <<< 8) ||| zextByte b))), fun s hacc hcnt => ?_⟩
    rw [exec_rfeed_eq, hacc, hcnt]

end Sys2Proof.Machine

/-! SUPPORT. The decoder inverted: which words decode to a given command (30_encoding.md R47, R52). -/

namespace Sys2Proof

theorem decodeN_eq_ok_iff {i j : Instr} {opnd : BitVec 9} : decodeN i opnd = .ok j ↔ opnd = 0#9 ∧ i = j := by
  by_cases h : opnd = 0#9 <;> simp [decodeN, h]

/-- A 9-bit operand with bit 8 clear is its low byte, zero-extended. -/
theorem setWidth_extractLsb'_of_bit8_eq_false {opnd : BitVec 9} (h : opnd.getLsbD 8 = false) :
    (opnd.extractLsb' 0 8).setWidth 9 = opnd := by
  have hlt : opnd.toNat < 256 := by
    rw [← Nat.not_le, ← opnd_bit8_iff_le_toNat, h]
    decide
  apply BitVec.eq_of_toNat_eq
  rw [BitVec.toNat_setWidth, BitVec.extractLsb'_toNat]
  omega

theorem decodeB8_eq_ok_iff {f : Byte → Instr} {j : Instr} {opnd : BitVec 9} :
    decodeB8 f opnd = .ok j ↔ ∃ b : Byte, opnd = b.setWidth 9 ∧ f b = j := by
  constructor
  · intro h
    cases hbit : opnd.getLsbD 8 with
    | true => simp [decodeB8, hbit, -BitVec.getLsbD_eq_getElem] at h
    | false =>
      refine ⟨opnd.extractLsb' 0 8, (setWidth_extractLsb'_of_bit8_eq_false hbit).symm, ?_⟩
      simpa [decodeB8, hbit, -BitVec.getLsbD_eq_getElem] using h
  · rintro ⟨b, rfl, rfl⟩
    exact decodeB8_setWidth f b

theorem encode_of_decodeN_ok {i j : Instr} {op : BitVec 3} {opnd : BitVec 9} (hi : encode i = commandOf op 0#9)
    (h : decodeN i opnd = .ok j) : encode j = commandOf op opnd := by
  obtain ⟨rfl, rfl⟩ := decodeN_eq_ok_iff.mp h
  exact hi

theorem encode_of_decodeB8_rfeed_ok {j : Instr} {opnd : BitVec 9} (h : decodeB8 .rfeed opnd = .ok j) :
    encode j = commandOf 4#3 opnd := by
  obtain ⟨b, rfl, rfl⟩ := decodeB8_eq_ok_iff.mp h
  rfl

/-- Decoding drops no bit: a legal word is the word of the command it decodes to. -/
theorem encode_of_decode_ok {w : Command} {i : Instr} (h : decode w = .ok i) : encode i = w := by
  rw [← commandOf_op_opnd w]
  unfold decode at h
  rcases op_cases w.op with ho | ho | ho | ho | ho | ho | ho | ho <;> rw [ho] at h ⊢
  · exact encode_of_decodeN_ok (i := .nop) rfl h
  · cases h; rfl
  · exact encode_of_decodeN_ok (i := .wfin) rfl h
  · exact encode_of_decodeN_ok (i := .wabort) rfl h
  · exact encode_of_decodeB8_rfeed_ok h
  · exact encode_of_decodeN_ok (i := .rend) rfl h
  · cases h
  · cases h

theorem decode_eq_ok_iff {w : Command} {i : Instr} : decode w = .ok i ↔ w = encode i := by
  constructor
  · exact fun h => (encode_of_decode_ok h).symm
  · rintro rfl
    exact decode_encode i

end Sys2Proof

/-! SUPPORT. NOP and the illegal words (42_control.md R79, R80). -/

namespace Sys2Proof.Machine

/-- After a reset, a step takes the word on the port and runs it (R44). -/
theorem step_of_command {s : State} {w : Command} {rest : List HostInput} (hr : s.hasBeenReset = true)
    (hi : s.inputs = .command w :: rest) : step s = execWord w { s with inputs := rest } := by
  rw [step_of_inputs_cons hi]
  simp [runInput, hr]

/-- Settles O15: the step runs the word, and an illegal word only raises ILL. -/
theorem illegalWordSetsIllOnly : Obligations.IllegalWordSetsIllOnly := by
  intro s w e rest hr hi hd
  rw [step_of_command hr hi, execWord_of_error hd]
  rfl

/-- Settles O23: NOP's only word is its encoding, R50's condition covers the other operands of OP 000, and NOP
has no effect. -/
theorem nopChangesNothing : Obligations.NopChangesNothing := by
  refine ⟨fun w => ?_, fun w hop hopnd => ?_, exec_nop_eq⟩
  · have hword : encode .nop = 0x000#12 := by decide
    rw [decode_eq_ok_iff, hword]
  · exact (exists_decode_error_iff_fields w).mpr (.inr (.inr (.inl ⟨.inl hop, hopnd⟩)))

end Sys2Proof.Machine

/-! SUPPORT. The host's decode (43_host_sequences.md R88): the stream law of a row of RFEED commands and REND, from any
reader, and the values the host gets from a clean one. -/

namespace Sys2Proof.Machine

open BitStream Driver

/-- A row of RFEED commands as a bit-stream law: pending bits and byte bits in, extracted fields and fewer than 9
pending bits out. -/
theorem rfeeds_conserve_bits (bs : List Byte) : ∀ s : State, s.hasBeenReset = true → s.rCnt.toNat ≤ 8 →
    ∃ (out : List Field) (t : State), drive (bs.map .rfeed) s = .next t
      ∧ t = { s with rAcc := t.rAcc, rCnt := t.rCnt, rOut := s.rOut ++ out.map valueOf }
      ∧ t.rCnt.toNat ≤ 8
      ∧ s.readerPending ++ byteBits bs = out.flatMap bitsOf ++ t.readerPending := by
  induction bs with
  | nil =>
    intro s _ hc
    exact ⟨[], s, rfl, by simp, hc, by simp [byteBits]⟩
  | cons b bs ih =>
    intro s hr hc
    obtain ⟨first, u, hexec, hu, hcnt, hbits⟩ := rfeed_conserves_bits b s hc
    have hru : u.hasBeenReset = true := (exec_common_frame hexec).2.2.trans hr
    obtain ⟨later, t, hrun, ht, hle, hbits'⟩ := ih u hru (by omega)
    refine ⟨first ++ later, t, ?_, ?_, hle, ?_⟩
    · rw [List.map_cons, drive_cons _ hr hexec, hrun]
    · rw [ht, hu]
      simp
    · calc s.readerPending ++ byteBits (b :: bs)
          = (s.readerPending ++ bitsOf b) ++ byteBits bs := by simp [byteBits]
        _ = first.flatMap bitsOf ++ (u.readerPending ++ byteBits bs) := by rw [hbits, List.append_assoc]
        _ = (first ++ later).flatMap bitsOf ++ t.readerPending := by
          rw [hbits', List.flatMap_append, List.append_assoc]

/-- A reader stream from any reader: its values are those of the whole fields of the bits pending before it and the
bytes' bits (R38, R92). -/
theorem drive_readerStream (bs : List Byte) {s : State} (hr : s.hasBeenReset = true) (hc : s.rCnt.toNat ≤ 8) :
    drive (bs.map .rfeed ++ [.rend]) s = .next { s with
      rAcc := 0#16, rCnt := 0#5
      rOut := s.rOut ++ (fieldsOf (s.readerPending ++ byteBits bs)).map valueOf } := by
  obtain ⟨out, t, hrun, ht, hle, hbits⟩ := rfeeds_conserve_bits bs s hr hc
  have hrt : t.hasBeenReset = true := by rw [ht]; exact hr
  have hpending : t.readerPending.length < 9 := by
    rw [length_readerPending t (by omega)]
    omega
  rw [drive_append _ hr hrun, drive_cons _ hrt (exec_rend_eq t), drive_nil, hbits, fieldsOf_flatMap out hpending, ht]

theorem readerPending_of_clean {s : State} (h : s.ReaderClean) : s.readerPending = [] := by
  have hc : s.rCnt.toNat = 0 := by simp [h.1]
  rw [readerPending_eq s (by omega), hc, lowBits_zero]

/-- The host's decode on a clean reader: each whole field of the bytes' bits, plus 1 (R38, R88). -/
theorem hostDecode_of_clean (bs : List Byte) {s : State} (hr : s.hasBeenReset = true) (hclean : s.ReaderClean) :
    hostDecode s bs = some ((fieldsOf (byteBits bs)).map (fun f => ((f.toNat + 1 : Nat) : Int))) := by
  have hrun := drive_readerStream bs hr (by simp [hclean.1])
  rw [readerPending_of_clean hclean, List.nil_append] at hrun
  simp [hostDecode, decodeCommands, hrun, toNat_valueOf]

theorem length_fieldsOf_byteBits (bs : List Byte) : (fieldsOf (byteBits bs)).length = 8 * bs.length / 9 := by
  rw [fieldsOf, List.length_map, List.length_range, byteBits, length_flatMap_bitsOf]

end Sys2Proof.Machine

/-! SUPPORT. The host's canonicalisation keeps the members (43_host_sequences.md R85), and the empty inputs of R89. -/

namespace Sys2Proof.Machine

open BitStream Driver

theorem mem_insertNumber {x y : Int} {ys : List Int} : x ∈ insertNumber y ys ↔ x = y ∨ x ∈ ys := by
  induction ys with
  | nil => simp [insertNumber]
  | cons z zs ih =>
    rw [insertNumber]
    split
    · simp
    · split
      next _ heq => simp [heq]
      next => simp [ih, or_left_comm]

theorem mem_canonicalise {x : Int} {ns : List Int} : x ∈ canonicalise ns ↔ x ∈ ns := by
  induction ns with
  | nil => simp [canonicalise]
  | cons n ns ih => rw [canonicalise, mem_insertNumber, ih, List.mem_cons]

theorem mem_encodable {x : Int} {ns : List Int} : x ∈ encodable ns ↔ x ∈ ns ∧ 1 ≤ x ∧ x ≤ 300 := by
  simp [encodable, inDomain, mem_canonicalise]

/-- With no number in the domain the host issues WFIN only (R89). -/
theorem encodeCommands_of_forall_out_of_domain {ns : List Int} (h : ∀ x ∈ ns, ¬ (1 ≤ x ∧ x ≤ 300)) :
    encodeCommands ns = [.wfin] := by
  have hnone : encodable ns = [] := by
    refine List.eq_nil_iff_forall_not_mem.mpr fun x hx => ?_
    obtain ⟨hmem, hdom⟩ := mem_encodable.mp hx
    exact h x hmem hdom
  rw [encodeCommands, hnone]
  rfl

/-- WFIN alone on a clean writer is the writer stream of no field: it emits nothing (R64). -/
theorem drive_wfin_of_clean {s : State} (hr : s.hasBeenReset = true) (hclean : s.WriterClean) :
    drive [.wfin] s = .next s := by
  have hrun := writerContentLaw [] s hr hclean
  rwa [show encodedStream [] = [] from rfl, List.append_nil] at hrun

/-- Settles O54: no number leaves the writer stream of no field, no byte the reader stream of no field, and the values
of any bytes are whole fields plus 1. -/
theorem hostEmptyAndArbitraryInput : Obligations.HostEmptyAndArbitraryInput := by
  intro s hr hw hread
  refine ⟨fun ns hout => ?_, rfl, hostDecode_of_clean [] hr hread, fun bs =>
    ⟨_, hostDecode_of_clean bs hr hread, ?_, fun v hv => ?_⟩⟩
  · have hcommands := encodeCommands_of_forall_out_of_domain hout
    refine ⟨hcommands, ?_⟩
    simp [hostEncode, hcommands, drive_wfin_of_clean hr hw]
  · rw [List.length_map, length_fieldsOf_byteBits]
  · obtain ⟨f, -, rfl⟩ := List.mem_map.mp hv
    have hf := f.isLt
    omega

end Sys2Proof.Machine

/-! SUPPORT. The step in which reset is asserted (70_reset_and_hazards.md R109, R110). -/

namespace Sys2Proof.Machine

/-- A step with reset asserted takes that input and applies the reset, before or after any other reset, whatever the
word on the port (R99). -/
theorem step_of_reset {s : State} {w : Option Command} {rest : List HostInput} (hi : s.inputs = .reset w :: rest) :
    step s = .next { s with inputs := rest }.applyReset := by
  rw [step_of_inputs_cons hi]
  rfl

/-- Settles O10: the step is the reset input's, which writes the four registers and ILL and neither stream. -/
theorem resetInputClearsRegistersOnly : Obligations.ResetInputClearsRegistersOnly := by
  intro s w rest hi
  rw [step_of_reset hi]
  rfl

end Sys2Proof.Machine

/-! SUPPORT. Decode and encode, both ways, and the opcode map (30_encoding.md R48, R52, R55). -/

namespace Sys2Proof

/-- Settles O5: `decode_encode`. -/
theorem decodeOfEncodeIsTheCommand : Obligations.DecodeOfEncodeIsTheCommand := decode_encode

/-- Settles O6: `encode_of_decode_ok`. -/
theorem encodeOfDecodeIsTheWord : Obligations.EncodeOfDecodeIsTheWord := fun _ _ => encode_of_decode_ok

theorem decode_eq_ok_iff_toNat {w : Command} {i : Instr} : decode w = .ok i ↔ w.toNat = (encode i).toNat := by
  rw [decode_eq_ok_iff, BitVec.toNat_inj]

theorem toNat_encode_wpush (v : Field) : (encode (.wpush v)).toNat = 0x200 + v.toNat := toNat_commandOf 0b001#3 v

/-- Settles O2: the word of each command, as a number. -/
theorem legalWordsOfEachCommand : Obligations.LegalWordsOfEachCommand := by
  intro w
  simp only [decode_eq_ok_iff_toNat, toNat_encode_wpush, Machine.toNat_encode_rfeed]
  exact ⟨Iff.rfl, by simp, Iff.rfl, Iff.rfl, by simp, Iff.rfl⟩

/-- The word of a command lies in the row of its mnemonic and in no other (R48). -/
theorem rows_of_encode (i : Instr) :
    (opcodeTable.filter (fun r => r.matchesWord (encode i))).map OpcodeRow.mnemonic = [i.mnemonic] := by
  cases i with
  | nop => exact Laws.EncodedWordLegal.nop
  | wpush v => exact Laws.EncodedWordLegal.wpush v
  | wfin => exact Laws.EncodedWordLegal.wfin
  | wabort => exact Laws.EncodedWordLegal.wabort
  | rfeed b => exact Laws.EncodedWordLegal.rfeed b
  | rend => exact Laws.EncodedWordLegal.rend

/-- Settles O3: a legal word is the word of its command, and an illegal one is not well formed, so no row holds it. -/
theorem decoderAgreesWithOpcodeTable : Obligations.DecoderAgreesWithOpcodeTable := by
  refine fun w => ⟨fun i h => ?_, fun e h => ?_⟩
  · rw [← encode_of_decode_ok h]
    exact rows_of_encode i
  · simpa [Command.wellFormed] using wellFormed_of_decode_error h

/-- Settles O1: each example word is the encoding of its command, and so decodes to it. -/
theorem exampleWordsEncodeAndDecode : Obligations.ExampleWordsEncodeAndDecode := by
  refine ⟨fun p hp => ?_, by decide⟩
  have hword : encode p.1 = p.2 := by
    revert p
    decide
  exact ⟨hword, decode_eq_ok_iff.mpr hword.symm⟩

end Sys2Proof

/-! SUPPORT. The assembler reads back the text of a command (30_encoding.md R53): the operand as a hexadecimal literal, the
words of a line, and the line without blanks and comment. -/

namespace Sys2Proof.Machine.Assembler

theorem digitValue_hexDigit : ∀ d < 16, digitValue (hexDigit d) = some d := by decide

theorem isBlank_hexDigit : ∀ d < 16, isBlank (hexDigit d) = false := by decide

theorem hexDigit_ne_semicolon : ∀ d < 16, hexDigit d ≠ ';' := by decide

theorem readFrom_hexDigit_cons {d : Nat} (h : d < 16) (acc : Nat) (cs : List Char) :
    readFrom 16 acc (hexDigit d :: cs) = readFrom 16 (acc * 16 + d) cs := by
  simp [readFrom, digitValue_hexDigit d h, h]

/-- A hexadecimal literal is `0x` and digits. -/
theorem hexLiteral_eq_digits {n : Nat} (h : n < 4096) : ∃ ds : List Nat, (∀ d ∈ ds, d < 16)
    ∧ hexLiteral n = '0' :: 'x' :: ds.map hexDigit ∧ readNumber 16 (ds.map hexDigit) = some n := by
  by_cases hn : n < 256
  · refine ⟨[n / 16 % 16, n % 16], ?_, by simp [hexLiteral, hex3, hn], ?_⟩
    · simp; omega
    · simp only [readNumber, List.map_cons, List.map_nil, List.isEmpty_cons, Bool.false_eq_true, if_false]
      rw [readFrom_hexDigit_cons (by omega), readFrom_hexDigit_cons (by omega), readFrom]
      congr 1; omega
  · refine ⟨[n / 256, n / 16 % 16, n % 16], ?_, by simp [hexLiteral, hex3, hn], ?_⟩
    · simp; omega
    · simp only [readNumber, List.map_cons, List.map_nil, List.isEmpty_cons, Bool.false_eq_true, if_false]
      rw [readFrom_hexDigit_cons (by omega), readFrom_hexDigit_cons (by omega), readFrom_hexDigit_cons (by omega),
        readFrom]
      congr 1; omega

theorem literal_hexLiteral {n : Nat} (h : n < 4096) : literal (hexLiteral n) = some n := by
  obtain ⟨ds, -, htext, hvalue⟩ := hexLiteral_eq_digits h
  rw [htext]
  exact hvalue

/-- No character of a literal is a blank or begins a comment. -/
theorem hexLiteral_chars {n : Nat} (h : n < 4096) : ∀ c ∈ hexLiteral n, isBlank c = false ∧ c ≠ ';' := by
  obtain ⟨ds, hdigit, htext, -⟩ := hexLiteral_eq_digits h
  rw [htext]
  intro c hc
  rcases List.mem_cons.mp hc with rfl | hc
  · decide
  rcases List.mem_cons.mp hc with rfl | hc
  · decide
  obtain ⟨d, hd, rfl⟩ := List.mem_map.mp hc
  exact ⟨isBlank_hexDigit d (hdigit d hd), hexDigit_ne_semicolon d (hdigit d hd)⟩

/-- Text without a separator joins the first piece of what follows it. -/
theorem pieces_append {sep : Char → Bool} {w rest p : List Char} {ps : List (List Char)}
    (hw : ∀ c ∈ w, sep c = false) (hrest : pieces sep rest = p :: ps) :
    pieces sep (w ++ rest) = (w ++ p) :: ps := by
  induction w with
  | nil => exact hrest
  | cons c w ih =>
    have hc := hw c (List.mem_cons_self ..)
    have ih := ih fun d hd => hw d (List.mem_cons_of_mem _ hd)
    simp [pieces, hc, ih]

/-- What stands behind a statement once its comment is cut off: nothing, or the blank before the comment. -/
abbrev IsTrail (trail : List Char) : Prop := trail = [] ∨ trail = [' ']

/-- One word between blanks is the only word. -/
theorem wordsOf_operand {w trail : List Char} (hw : ∀ c ∈ w, isBlank c = false) (hne : w ≠ []) (ht : IsTrail trail) :
    wordsOf (' ' :: (w ++ trail)) = [w] := by
  have hblank : pieces isBlank (' ' :: (w ++ trail)) = [] :: pieces isBlank (w ++ trail) := rfl
  rw [wordsOf, hblank]
  rcases ht with rfl | rfl
  · rw [pieces_append hw (p := []) (ps := []) rfl]
    simp [hne]
  · rw [pieces_append hw (p := []) (ps := [[]]) rfl]
    simp [hne]

theorem oneOperand_hexLiteral (st : Nat → AsmStmt) {n : Nat} (h : n < 4096) {trail : List Char} (ht : IsTrail trail) :
    oneOperand st (' ' :: (hexLiteral n ++ trail)) = .ok (st n) := by
  have hwords := wordsOf_operand (fun c hc => (hexLiteral_chars h c hc).1) (by simp [hexLiteral]) ht
  simp [oneOperand, hwords, literal_hexLiteral h]

/-- The statement a command's text is. -/
def statementOf : Instr → AsmStmt
  | .nop => .nop
  | .wpush v => .wpush v.toNat
  | .wfin => .wfin
  | .wabort => .wabort
  | .rfeed b => .rfeed b.toNat
  | .rend => .rend

/-- The statement is in range and stands for the command alone. -/
theorem assembleStmt_statementOf (i : Instr) : assembleStmt (statementOf i) = .ok [i] := by
  cases i with
  | nop | wfin | wabort | rend => rfl
  | wpush v =>
    have hv := v.isLt
    rw [assembleStmt_of_wellFormed (by simp [statementOf, AsmStmt.wellFormed]; omega)]
    simp [statementOf, AsmStmt.expand]
  | rfeed b =>
    have hb := b.isLt
    rw [assembleStmt_of_wellFormed (by simp [statementOf, AsmStmt.wellFormed]; omega)]
    simp [statementOf, AsmStmt.expand]

/-- The mnemonic and the operand of a command's text parse to its statement. -/
theorem parseStmt_sourceText (i : Instr) {trail : List Char} (ht : IsTrail trail) :
    parseStmt ((sourceText i ++ trail).takeWhile (fun c => !isBlank c))
      ((sourceText i ++ trail).dropWhile (fun c => !isBlank c)) = .ok (statementOf i) := by
  cases i with
  | nop | wfin | wabort | rend => rcases ht with rfl | rfl <;> rfl
  | wpush v =>
    have hv := v.isLt
    exact oneOperand_hexLiteral .wpush (by omega) ht
  | rfeed b =>
    have hb := b.isLt
    exact oneOperand_hexLiteral .rfeed (by omega) ht

theorem sourceText_ne_semicolon (i : Instr) : ∀ c ∈ sourceText i, c ≠ ';' := by
  cases i with
  | nop | wfin | wabort | rend => simp [sourceText]
  | wpush v =>
    have hv := v.isLt
    simpa [sourceText] using fun c hc => (hexLiteral_chars (n := v.toNat) (by omega) c hc).2
  | rfeed b =>
    have hb := b.isLt
    simpa [sourceText] using fun c hc => (hexLiteral_chars (n := b.toNat) (by omega) c hc).2

/-- The text of a command begins with a letter. -/
theorem dropWhile_isBlank_sourceText (i : Instr) (trail : List Char) :
    (sourceText i ++ trail).dropWhile isBlank = sourceText i ++ trail := by
  cases i <;> rfl

/-- A line that is a command's text, up to leading blanks and a comment, assembles to the command. -/
theorem assembleLine_of_code {line trail : List Char} {i : Instr} (ht : IsTrail trail)
    (hcode : (withoutComment line).dropWhile isBlank = sourceText i ++ trail) : assembleLine line = .ok [i] := by
  have hne : (sourceText i ++ trail).isEmpty = false := by cases i <;> rfl
  simp only [assembleLine, hcode, hne, Bool.false_eq_true, if_false, parseStmt_sourceText i ht]
  exact assembleStmt_statementOf i

theorem withoutComment_append {w : List Char} (hw : ∀ c ∈ w, c ≠ ';') (rest : List Char) :
    withoutComment (w ++ rest) = w ++ withoutComment rest :=
  List.takeWhile_append_of_pos (by simpa using hw)

/-- Settles O7: without the comment and the blanks before it, both lines are the command's text. -/
theorem assemblerReadsBackEveryCommand : Obligations.AssemblerReadsBackEveryCommand := by
  intro i comment
  have htext := sourceText_ne_semicolon i
  constructor
  · refine assembleLine_of_code (trail := []) (.inl rfl) ?_
    have hcut := withoutComment_append htext []
    rw [List.append_nil] at hcut
    rw [hcut]
    exact dropWhile_isBlank_sourceText i []
  · refine assembleLine_of_code (trail := [' ']) (.inr rfl) ?_
    have hcut : withoutComment (' ' :: sourceText i ++ ' ' :: ';' :: comment) = ' ' :: (sourceText i ++ [' ']) :=
      withoutComment_append (w := ' ' :: sourceText i) (by simpa using htext) _
    rw [hcut]
    exact dropWhile_isBlank_sourceText i [' ']

end Sys2Proof.Machine.Assembler

/-! SUPPORT. Every step (20_memory.md R44, 43_host_sequences.md R90): what it takes, that it completes after a reset, and
that the streams grow only. -/

namespace Sys2Proof.Machine

/-- Settles O16: the step of a command word, with its command decoded. -/
theorem stepRunsTheDecodedCommand : Obligations.StepRunsTheDecodedCommand := by
  intro s w i rest hr hi hd
  rw [step_of_command hr hi, execWord_of_ok hd]

/-- Settles O17: each of the three cases of a step leaves the rest of the inputs. -/
theorem inputsAreTakenOnceInOrder : Obligations.InputsAreTakenOnceInOrder := by
  refine ⟨fun s t h => ?_, fun s => step_of_inputs_nil⟩
  rcases step_cases h with ⟨hi, rfl⟩ | ⟨w, rest, hi, rfl⟩ | ⟨w, rest, hi, -, hw⟩
  · simp [hi]
  · simp [hi]
  · simp [hi, (execWord_hasBeenReset hw).2]

/-- Settles O18: the input may be none, a reset or a word, and a word's execution completes. -/
theorem stepAlwaysCompletesAfterReset : Obligations.StepAlwaysCompletesAfterReset := by
  intro s hr
  match hi : s.inputs with
  | [] => exact ⟨s, step_of_inputs_nil hi, hr⟩
  | .reset w :: rest => exact ⟨_, step_of_reset hi, rfl⟩
  | .command w :: rest =>
    obtain ⟨t, ht⟩ := execWord_completes w { s with inputs := rest }
    exact ⟨t, (step_of_command hr hi).trans ht, (execWord_hasBeenReset ht).1.trans hr⟩

/-- A command appends to the streams at most (R22). -/
theorem exec_streams_prefix {i : Instr} {s t : State} (h : exec i s = .next t) :
    s.wOut <+: t.wOut ∧ s.rOut <+: t.rOut := by
  cases i with
  | nop | wabort | rend => cases h; exact ⟨List.prefix_rfl, List.prefix_rfl⟩
  | wpush v => rw [exec_wpush_eq] at h; cases h; exact ⟨List.prefix_append .., List.prefix_rfl⟩
  | wfin => rw [exec_wfin_eq] at h; cases h; exact ⟨List.prefix_append .., List.prefix_rfl⟩
  | rfeed b => rw [exec_rfeed_eq] at h; cases h; exact ⟨List.prefix_rfl, List.prefix_append ..⟩

theorem execWord_streams_prefix {w : Command} {s t : State} (h : execWord w s = .next t) :
    s.wOut <+: t.wOut ∧ s.rOut <+: t.rOut := by
  match hd : decode w with
  | .ok i => rw [execWord_of_ok hd] at h; exact exec_streams_prefix h
  | .error e => rw [execWord_of_error hd] at h; cases h; exact ⟨List.prefix_rfl, List.prefix_rfl⟩

/-- Settles O19: idling and reset keep the streams, a word appends at most. -/
theorem streamsOnlyGrow : Obligations.StreamsOnlyGrow := by
  intro s t h
  rcases step_cases h with ⟨-, rfl⟩ | ⟨w, rest, -, rfl⟩ | ⟨w, rest, -, -, hw⟩
  · exact ⟨List.prefix_rfl, List.prefix_rfl⟩
  · exact ⟨List.prefix_rfl, List.prefix_rfl⟩
  · exact execWord_streams_prefix (s := { s with inputs := rest }) hw

/-- Settles O11: no word runs before a reset, and the reset input leaves no register as it was. -/
theorem powerUpNeedsOneReset : Obligations.PowerUpNeedsOneReset := by
  refine ⟨fun s w rest hr hi => ?_, fun w rest => step_of_reset rfl⟩
  rw [step_of_inputs_cons hi]
  simp [runInput, hr]

/-- Settles O35: the closed forms of the commands of R28. -/
theorem whatLeavesAChannelClean : Obligations.WhatLeavesAChannelClean :=
  ⟨⟨rfl, rfl⟩, ⟨rfl, rfl⟩, fun _ => ⟨⟨rfl, rfl⟩, rfl, rfl⟩, fun s => ⟨_, exec_wfin_eq s, rfl, rfl⟩,
    fun s => ⟨_, exec_wabort_eq s, rfl, rfl⟩, fun s => ⟨_, exec_rend_eq s, rfl, rfl⟩⟩

/-- WFIN on a clean writer is a no-op (R64). -/
theorem exec_wfin_of_clean {s : State} (h : s.WriterClean) : exec .wfin s = .next s := by
  obtain ⟨hcnt, hacc⟩ := h
  rw [exec_wfin_eq, if_neg (by simp [hcnt]), List.append_nil, ← hcnt, ← hacc]

/-- Settles O36: the first WFIN leaves a clean writer. -/
theorem repeatedWfinEmitsNothing : Obligations.RepeatedWfinEmitsNothing := by
  intro s t h
  rw [exec_wfin_eq] at h
  cases h
  exact exec_wfin_of_clean ⟨rfl, rfl⟩

end Sys2Proof.Machine

/-! SUPPORT. STATUS (10_state.md R19, 42_control.md R81): its number, from which each field is read. -/

namespace Sys2Proof.Machine

theorem toNat_append_eq {m n : Nat} (x : BitVec m) (y : BitVec n) :
    (x ++ y).toNat = x.toNat * 2 ^ n + y.toNat := by
  rw [BitVec.toNat_append, ← Nat.shiftLeft_add_eq_or_of_lt y.isLt, Nat.shiftLeft_eq]

/-- In their stable ranges both counts fit their fields. -/
theorem toNat_status {s : State} (hw : s.wCnt.toNat ≤ 7) (hr : s.rCnt.toNat ≤ 8) :
    s.status.toNat = s.wCnt.toNat + 16 * s.rCnt.toNat + 256 * s.ill.toNat := by
  have hw3 : (s.wCnt.extractLsb' 0 3).toNat = s.wCnt.toNat := by
    rw [BitVec.extractLsb'_toNat, Nat.shiftRight_zero]
    omega
  have hr4 : (s.rCnt.extractLsb' 0 4).toNat = s.rCnt.toNat := by
    rw [BitVec.extractLsb'_toNat, Nat.shiftRight_zero]
    omega
  simp only [State.status, State.illBit, toNat_append_eq, hw3, hr4, BitVec.toNat_ofBool, BitVec.toNat_ofNat]
  omega

/-- Settles O12: each field is a digit of STATUS's number. -/
theorem statusFields : Obligations.StatusFields := by
  intro s hw hr
  have hnum := toNat_status hw hr
  have hill := Bool.toNat_le s.ill
  refine ⟨?_, ?_, ?_, ?_, ?_, hnum⟩
  · rw [BitVec.extractLsb'_toNat, hnum]
    omega
  · rw [← BitVec.testBit_toNat, Nat.testBit_eq_decide_div_mod_eq, hnum, decide_eq_false_iff_not]
    omega
  · rw [BitVec.extractLsb'_toNat, hnum, Nat.shiftRight_eq_div_pow]
    omega
  · rw [← BitVec.testBit_toNat, Nat.testBit_eq_decide_div_mod_eq, hnum]
    cases s.ill <;> simp <;> omega
  · apply BitVec.eq_of_toNat_eq
    rw [BitVec.extractLsb'_toNat, hnum, Nat.shiftRight_eq_div_pow, BitVec.toNat_ofNat]
    omega

/-- Settles O13: whichever the free choice is. -/
theorem concurrentStatusIsBeforeOrAfter : Obligations.ConcurrentStatusIsBeforeOrAfter := by
  intro k s t _
  rw [concurrentStatus]
  split
  · exact .inr rfl
  · exact .inl rfl

end Sys2Proof.Machine

/-! SUPPORT. The invariant (10_state.md R23, R24; 41_reader.md R73): reset establishes it and every step keeps it. -/

namespace Sys2Proof.Machine

/-- Reset establishes the invariant, whatever the registers held. -/
theorem inv_applyReset {s : State} (h : s.ValuesInRange) : s.applyReset.Inv :=
  ⟨rfl, ⟨by simp, by simp⟩, ⟨by simp, by simp⟩, h⟩

/-- Settles O20: the reset state is what the reset input makes of it, and it has no value on ROUT. -/
theorem invariantHoldsAtReset : Obligations.InvariantHoldsAtReset :=
  inv_applyReset (s := State.reset) fun _ hv => absurd hv List.not_mem_nil

/-- Settles O22: the step is the reset input's. -/
theorem resetEstablishesTheInvariant : Obligations.ResetEstablishesTheInvariant := by
  intro s t w rest hv hi h
  rw [step_of_reset hi] at h
  cases h
  exact inv_applyReset hv

theorem toNat_ofNat_mod_two_pow_lt (w p k : Nat) : (BitVec.ofNat w (p % 2 ^ k)).toNat < 2 ^ k := by
  rw [BitVec.toNat_ofNat]
  exact (Nat.mod_le _ _).trans_lt (Nat.mod_lt _ (Nat.two_pow_pos k))

/-- A command keeps the writer invariant (R23). -/
theorem exec_keeps_writerInv {i : Instr} {s t : State} (hs : s.WriterInv) (h : exec i s = .next t) :
    t.WriterInv := by
  cases i with
  | nop | rend => cases h; exact hs
  | wpush v =>
    rw [(wpushPacksTheField v s hs).2] at h
    cases h
    have hcnt : (BitVec.ofNat 5 ((s.wCnt.toNat + 9) % 8)).toNat = (s.wCnt.toNat + 9) % 8 := by
      rw [BitVec.toNat_ofNat]
      omega
    simp only [State.WriterInv, hcnt]
    exact ⟨by omega, toNat_ofNat_mod_two_pow_lt ..⟩
  | wfin => rw [exec_wfin_eq] at h; cases h; exact ⟨by simp, by simp⟩
  | wabort => cases h; exact ⟨by simp, by simp⟩
  | rfeed b => rw [exec_rfeed_eq] at h; cases h; exact hs

/-- A command keeps the reader invariant (R24). -/
theorem exec_keeps_readerInv {i : Instr} {s t : State} (hs : s.ReaderInv) (h : exec i s = .next t) :
    t.ReaderInv := by
  cases i with
  | nop | wabort => cases h; exact hs
  | wpush v => rw [exec_wpush_eq] at h; cases h; exact hs
  | wfin => rw [exec_wfin_eq] at h; cases h; exact hs
  | rfeed b =>
    rw [(rfeedExtractsTheField b s hs).2] at h
    cases h
    have hcnt : (BitVec.ofNat 5 ((s.rCnt.toNat + 8) % 9)).toNat = (s.rCnt.toNat + 8) % 9 := by
      rw [BitVec.toNat_ofNat]
      omega
    simp only [State.ReaderInv, hcnt]
    exact ⟨by omega, toNat_ofNat_mod_two_pow_lt ..⟩
  | rend => cases h; exact ⟨by simp, by simp⟩

/-- A command keeps ROUT in 1..512 (R73). -/
theorem exec_keeps_valuesInRange {i : Instr} {s t : State} (hs : s.ValuesInRange) (h : exec i s = .next t) :
    t.ValuesInRange := by
  cases i with
  | nop | wabort | rend => cases h; exact hs
  | wpush v => rw [exec_wpush_eq] at h; cases h; exact hs
  | wfin => rw [exec_wfin_eq] at h; cases h; exact hs
  | rfeed b =>
    obtain ⟨t', vs, ht', hout, hvs⟩ := readerValuesAreFieldPlusOne.1 b s
    obtain rfl : t' = t := by simpa [ht'] using h
    intro v hv
    rw [hout] at hv
    rcases List.mem_append.mp hv with hv | hv
    · exact hs v hv
    · obtain ⟨f, -, hrange⟩ := hvs v hv
      exact hrange

theorem exec_keeps_inv {i : Instr} {s t : State} (hs : s.Inv) (h : exec i s = .next t) : t.Inv := by
  obtain ⟨hr, hw, hread, hv⟩ := hs
  exact ⟨(exec_common_frame h).2.2.trans hr, exec_keeps_writerInv hw h, exec_keeps_readerInv hread h,
    exec_keeps_valuesInRange hv h⟩

/-- Settles O21: idling changes nothing, reset establishes the invariant, and a word runs a command or raises ILL. -/
theorem everyStepKeepsTheInvariant : Obligations.EveryStepKeepsTheInvariant := by
  intro s t hs h
  rcases step_cases h with ⟨-, rfl⟩ | ⟨w, rest, -, rfl⟩ | ⟨w, rest, -, -, hw⟩
  · exact hs
  · exact inv_applyReset hs.2.2.2
  · match hd : decode w with
    | .ok i => rw [execWord_of_ok hd] at hw; exact exec_keeps_inv (s := { s with inputs := rest }) hs hw
    | .error e => rw [execWord_of_error hd] at hw; cases hw; exact hs

end Sys2Proof.Machine

/-! SUPPORT. How much each command emits (20_memory.md R40, 40_writer.md R63, 41_reader.md R72). -/

namespace Sys2Proof.Machine

/-- WPUSH on at most 6 pending bits: one byte comes out, one bit more stays (R63). -/
theorem exec_wpush_of_le_six (v : Field) {s : State} (h : s.wCnt.toNat ≤ 6) :
    exec (.wpush v) s = .next { s with
      wAcc := ((s.wAcc <<< 9) ||| zextField v) &&& mask (s.wCnt.toNat + 1)
      wCnt := BitVec.ofNat 5 (s.wCnt.toNat + 1)
      wOut := s.wOut ++ [byteAbove (s.wCnt.toNat + 1) ((s.wAcc <<< 9) ||| zextField v)] } := by
  have hdiv : (s.wCnt.toNat + 9) / 8 = 1 := by omega
  have hmod : (s.wCnt.toNat + 9) % 8 = s.wCnt.toNat + 1 := by omega
  rw [exec_wpush_eq, hdiv, hmod]
  simp

/-- WPUSH on 7 pending bits: two bytes come out, nothing stays (R63). -/
theorem exec_wpush_of_eq_seven (v : Field) {s : State} (h : s.wCnt.toNat = 7) :
    exec (.wpush v) s = .next { s with
      wAcc := 0#16
      wCnt := 0#5
      wOut := s.wOut ++ [byteAbove 8 ((s.wAcc <<< 9) ||| zextField v), byteAbove 0 ((s.wAcc <<< 9) ||| zextField v)] } := by
  rw [exec_wpush_eq, h]
  simp [mask, List.range_succ]

theorem byteAbove_eight_pushed (a : Acc) (v : Field) :
    byteAbove 8 ((a <<< 9) ||| zextField v) = a.setWidth 7 ++ v.extractLsb' 8 1 := by
  apply BitVec.eq_of_getLsbD_eq
  intro i hi
  rw [BitVec.getLsbD_append]
  cases i with
  | zero => simp [byteAbove, zextField]
  | succ k =>
    have hhigh : v.getLsbD (8 + (k + 1)) = false := BitVec.getLsbD_of_ge v _ (by omega)
    simp [byteAbove, zextField, hi, hhigh, show 8 + (k + 1) - 9 = k by omega, show 8 + (k + 1) < 16 by omega,
      show ¬ 8 + (k + 1) < 9 by omega, show k < 7 by omega, BitVec.getLsbD_eq_getElem (show k < 16 by omega)]

theorem byteAbove_zero_pushed (a : Acc) (v : Field) :
    byteAbove 0 ((a <<< 9) ||| zextField v) = v.extractLsb' 0 8 := by
  apply BitVec.eq_of_getLsbD_eq
  intro i hi
  simp [byteAbove, zextField, hi, show i < 9 by omega]

/-- Settles O25: the two counts, and the two bytes of the second read bit by bit. -/
theorem wpushEmitsOneOrTwoBytes : Obligations.WpushEmitsOneOrTwoBytes := by
  intro v s _
  constructor
  · intro h
    refine ⟨_, _, exec_wpush_of_le_six v h, rfl, ?_⟩
    rw [BitVec.toNat_ofNat]
    omega
  · intro h
    refine ⟨_, exec_wpush_of_eq_seven v h, ?_, rfl, rfl⟩
    rw [byteAbove_eight_pushed, byteAbove_zero_pushed]

/-- Settles O29: RFEED on an empty reader and on pending bits. -/
theorem rfeedEmitsAtMostOneValue : Obligations.RfeedEmitsAtMostOneValue := by
  intro b s hinv
  obtain ⟨h8, -⟩ := hinv
  refine ⟨fun h => ⟨_, exec_rfeed_of_rCnt_eq_zero b h, rfl, rfl⟩, fun h => ⟨_, _, exec_rfeed_of_pending b h h8, rfl, ?_⟩⟩
  rw [BitVec.toNat_ofNat]
  omega

/-- A command appends to each stream as many elements as R40 says. -/
theorem exec_lengths {i : Instr} {s t : State} (hw : s.wCnt.toNat ≤ 7) (hr : s.rCnt.toNat ≤ 8)
    (h : exec i s = .next t) :
    t.wOut.length = s.wOut.length + Instr.wAppends i s ∧ t.rOut.length = s.rOut.length + Instr.rAppends i s := by
  cases i with
  | nop | wabort | rend => cases h; exact ⟨rfl, rfl⟩
  | wpush v =>
    rw [exec_wpush_eq] at h
    cases h
    have hbytes : (s.wCnt.toNat + 9) / 8 = Instr.wAppends (.wpush v) s := by
      rw [Instr.wAppends]
      split <;> omega
    simp [hbytes, Instr.rAppends]
  | wfin =>
    rw [exec_wfin_eq] at h
    cases h
    simp only [Instr.wAppends, Instr.rAppends, List.length_append]
    by_cases hc : s.wCnt.toNat = 0
    · simp [hc]
    · simp [hc, Nat.pos_of_ne_zero hc]
  | rfeed b =>
    rw [exec_rfeed_eq] at h
    cases h
    have hvalues : (s.rCnt.toNat + 8) / 9 = Instr.rAppends (.rfeed b) s := by
      rw [Instr.rAppends]
      split <;> omega
    simp [hvalues, Instr.wAppends]

/-- Settles O56: every command completes, with these lengths. -/
theorem commandsAppendTheStatedCounts : Obligations.CommandsAppendTheStatedCounts := by
  intro i s hw hr
  obtain ⟨t, ht⟩ := exec_completes i s
  exact ⟨t, ht, exec_lengths hw.1 hr.1 ht⟩

end Sys2Proof.Machine

/-! SUPPORT. Any bit-stream as whole elements and a rest (20_memory.md R33, R35): cutting it into bytes loses no bit of
them, and padding leaves no rest. -/

namespace Sys2Proof.Machine

open BitStream

/-- Any `k` bits are the bits of a `k`-bit element. -/
theorem exists_bitsOf_eq {k : Nat} {l : List Bool} (h : l.length = k) : ∃ x : BitVec k, bitsOf x = l := by
  subst h
  refine ⟨BitVec.ofBoolListBE l, List.ext_getElem (length_bitsOf _) fun i hi hi' => ?_⟩
  have hbit := BitVec.getMsbD_ofBoolListBE (bs := l) (i := i)
  simpa [bitsOf, BitVec.getMsbD, hi'] using hbit

/-- Any bit-stream is whole elements and a rest too short for one more. -/
theorem exists_eq_flatMap_bitsOf {k : Nat} (hk : 0 < k) (s : List Bool) :
    ∃ (l : List (BitVec k)) (rest : List Bool), s = l.flatMap bitsOf ++ rest ∧ rest.length < k := by
  by_cases hs : s.length < k
  · exact ⟨[], s, rfl, hs⟩
  · obtain ⟨x, hx⟩ := exists_bitsOf_eq (k := k) (l := s.take k) (by simp; omega)
    obtain ⟨l, rest, hl, hrest⟩ := exists_eq_flatMap_bitsOf hk (s.drop k)
    refine ⟨x :: l, rest, ?_, hrest⟩
    rw [List.flatMap_cons, hx, List.append_assoc, ← hl, List.take_append_drop]
termination_by s.length
decreasing_by simp; omega

/-- Settles O39: the stream is the bytes it is cut into, and a rest. -/
theorem byteBitsInStreamOrder : Obligations.ByteBitsInStreamOrder := by
  intro s j h u hu
  obtain ⟨l, rest, rfl, hrest⟩ := exists_eq_flatMap_bitsOf (k := 8) (by decide) s
  simp only [bytesOf_flatMap l hrest] at h ⊢
  exact getElem?_flatMap_bitsOf l rest h hu

theorem length_bytesOf (s : List Bool) : (bytesOf s).length = s.length / 8 := by simp [bytesOf]

/-- Cutting a bit-stream of whole bytes into bytes loses nothing. -/
theorem byteBits_bytesOf {s : List Bool} (h : s.length % 8 = 0) : byteBits (bytesOf s) = s := by
  obtain ⟨l, rest, rfl, hrest⟩ := exists_eq_flatMap_bitsOf (k := 8) (by decide) s
  rw [List.length_append, length_flatMap_bitsOf] at h
  obtain rfl : rest = [] := List.eq_nil_of_length_eq_zero (by omega)
  rw [bytesOf_flatMap l hrest, byteBits, List.append_nil]

theorem length_padded (s : List Bool) : (padded s).length = (s.length + 7) / 8 * 8 := by
  rw [padded, List.length_append, List.length_replicate, padLength]
  omega

theorem length_fieldBits (fs : List Field) : (fieldBits fs).length = 9 * fs.length := length_flatMap_bitsOf fs

theorem length_byteBits (bs : List Byte) : (byteBits bs).length = 8 * bs.length := length_flatMap_bitsOf bs

theorem length_encodedStream (fs : List Field) : (encodedStream fs).length = (9 * fs.length + 7) / 8 := by
  rw [encodedStream, length_bytesOf, length_padded, length_fieldBits]
  omega

/-- The bytes of a writer stream hold the fields' bits and the padding (R31). -/
theorem byteBits_encodedStream (fs : List Field) : byteBits (encodedStream fs) = padded (fieldBits fs) :=
  byteBits_bytesOf (by rw [length_padded]; omega)

/-- The fields of a padded stream of fields are the fields: the padding is shorter than a field. -/
theorem fieldsOf_padded_fieldBits (fs : List Field) : fieldsOf (padded (fieldBits fs)) = fs :=
  fieldsOf_flatMap fs (by rw [List.length_replicate, padLength]; omega)

/-- The framing formulas undo each other (R39). -/
theorem fieldsOf_byteBits_encodedStream (fs : List Field) : fieldsOf (byteBits (encodedStream fs)) = fs := by
  rw [byteBits_encodedStream, fieldsOf_padded_fieldBits]

/-- Settles O40: the padding of 9n bits. -/
theorem paddingOfAWriterStream : Obligations.PaddingOfAWriterStream := by
  intro fs
  rw [length_fieldBits, padLength]
  omega

/-- The bits behind the whole elements of a stream. -/
theorem drop_flatMap_bitsOf {k : Nat} (l : List (BitVec k)) {rest : List Bool} (h : rest.length < k) :
    (l.flatMap bitsOf ++ rest).drop ((l.flatMap bitsOf ++ rest).length / k * k) = rest := by
  have hwhole : (l.flatMap bitsOf ++ rest).length / k * k = (l.flatMap bitsOf).length := by
    rw [List.length_append, length_flatMap_bitsOf, Nat.mul_add_div (by omega), Nat.div_eq_of_lt h, Nat.add_zero,
      Nat.mul_comm]
  rw [hwhole, List.drop_left]

theorem take_flatMap_bitsOf {k : Nat} (l : List (BitVec k)) (n : Nat) :
    (l.take n).flatMap bitsOf = (l.flatMap bitsOf).take (k * n) := by
  induction l generalizing n with
  | nil => simp
  | cons x l ih =>
    cases n with
    | zero => simp
    | succ n =>
      have hsplit : k * (n + 1) = (bitsOf x).length + k * n := by rw [length_bitsOf, Nat.mul_succ, Nat.add_comm]
      rw [List.take_succ_cons, List.flatMap_cons, List.flatMap_cons, ih, hsplit, List.take_length_add_append]

/-- A field within the first `m` bits is read from them. -/
theorem fieldAt_take (s : List Bool) {i m : Nat} (h : 9 * i + 9 ≤ m) : fieldAt (s.take m) i = fieldAt s i := by
  refine congrArg (BitVec.ofNat 9) (congrArg List.sum (List.map_congr_left fun t ht => ?_))
  have ht := List.mem_range.mp ht
  simp [bitAt, List.getD, show 9 * i + t < m by omega]

/-- The first bits of a stream hold its first fields. -/
theorem fieldsOf_take (s : List Bool) {m : Nat} (h : m ≤ s.length) : fieldsOf (s.take m) = (fieldsOf s).take (m / 9) := by
  apply List.ext_getElem
  · simp only [fieldsOf, List.length_map, List.length_range, List.length_take]
    omega
  · intro i hi _
    simp only [fieldsOf, List.length_map, List.length_range, List.length_take] at hi
    simp only [fieldsOf, List.getElem_map, List.getElem_range, List.getElem_take]
    exact fieldAt_take s (by omega)

end Sys2Proof.Machine

/-! SUPPORT. The stream laws (10_state.md R29, R30; 40_writer.md R66; 41_reader.md R75, R76; 43_host_sequences.md R92),
from the two bit-stream laws of a row of commands. -/

namespace Sys2Proof.Machine

open BitStream

/-- The value of a field in the obligations' form. -/
theorem valueOf_eq_ofNat : valueOf = fun f => BitVec.ofNat 10 (f.toNat + 1) := by
  funext f
  rw [← toNat_valueOf, BitVec.ofNat_toNat, BitVec.setWidth_eq]

/-- Settles O41: the bits of the fields are those of the bytes out and of fewer than 8 pending. -/
theorem writerBitConservation : Obligations.WriterBitConservation := by
  intro fs s hr hclean
  obtain ⟨out, t, hrun, ht, hle, hbits⟩ := wpushes_conserve_bits fs s hr (by simp [hclean.1])
  have hlen := congrArg List.length hbits
  rw [writerPending_of_clean hclean, List.nil_append, length_fieldBits, List.length_append, length_flatMap_bitsOf,
    length_writerPending t (by omega)] at hlen
  have hout : t.wOut.length = s.wOut.length + out.length := by rw [ht]; simp
  exact ⟨t, hrun, by omega, by omega⟩

/-- Settles O42: the bits of the bytes are those of the values out and of fewer than 9 pending. -/
theorem readerBitConservation : Obligations.ReaderBitConservation := by
  intro bs s hr hclean
  obtain ⟨out, t, hrun, ht, hle, hbits⟩ := rfeeds_conserve_bits bs s hr (by simp [hclean.1])
  have hlen := congrArg List.length hbits
  rw [readerPending_of_clean hclean, List.nil_append, length_byteBits, List.length_append, length_flatMap_bitsOf,
    length_readerPending t (by omega)] at hlen
  have hout : t.rOut.length = s.rOut.length + out.length := by rw [ht]; simp
  exact ⟨t, hrun, by omega, by omega⟩

/-- Settles O43: the length of the encoded stream. -/
theorem writerLengthLaw : Obligations.WriterLengthLaw := by
  intro fs s hr hclean
  refine ⟨_, writerContentLaw fs s hr hclean, ?_⟩
  rw [List.length_append, length_encodedStream]

/-- A reader stream from a clean reader: the values of the bytes' whole fields, and nothing else (R38). -/
theorem drive_readerStream_of_clean (bs : List Byte) {s : State} (hr : s.hasBeenReset = true)
    (hclean : s.ReaderClean) :
    drive (bs.map .rfeed ++ [.rend]) s = .next { s with
      rOut := s.rOut ++ (fieldsOf (byteBits bs)).map (fun f => BitVec.ofNat 10 (f.toNat + 1)) } := by
  have hrun := drive_readerStream bs hr (by simp [hclean.1])
  obtain ⟨hcnt, hacc⟩ := hclean
  rw [readerPending_of_clean ⟨hcnt, hacc⟩, List.nil_append, ← hcnt, ← hacc] at hrun
  rw [hrun, valueOf_eq_ofNat]

/-- Settles O45: the number of whole fields of the bytes. -/
theorem readerLengthLaw : Obligations.ReaderLengthLaw := by
  intro bs s hr hclean
  refine ⟨_, drive_readerStream_of_clean bs hr hclean, ?_⟩
  rw [List.length_append, List.length_map, length_fieldsOf_byteBits]

/-- Settles O46: the whole fields of the bytes, by the framing formula. -/
theorem readerFramingLaw : Obligations.ReaderFramingLaw := by
  intro bs s hr hclean
  rw [drive_readerStream_of_clean bs hr hclean, fieldsOf, length_byteBits, List.map_map]
  rfl

/-- Settles O47: the row of WPUSH commands emits the whole bytes of the bits and keeps the rest, which WABORT drops and
WFIN pads. -/
theorem writerPrependsPendingBits : Obligations.WriterPrependsPendingBits := by
  intro fs s hr hinv
  obtain ⟨hc, -⟩ := hinv
  obtain ⟨out, t, hrun, ht, hle, hbits⟩ := wpushes_conserve_bits fs s hr hc
  have hrt : t.hasBeenReset = true := by rw [ht]; exact hr
  have hpending : t.writerPending.length ≤ 7 := by rwa [length_writerPending t (by omega)]
  refine ⟨t, hrun, ?_, ?_, hpending, ?_, drive_writerStream fs hr hc⟩
  · rw [hbits, bytesOf_flatMap out (by omega)]
    exact ht
  · rw [hbits, drop_flatMap_bitsOf out (by omega)]
  · rw [drive_append _ hr hrun, drive_cons _ hrt (exec_wabort_eq t), drive_nil]

/-- Settles O48: the row of RFEED commands emits the whole fields of the bits and keeps the rest. -/
theorem readerPrependsPendingBits : Obligations.ReaderPrependsPendingBits := by
  intro bs s hr hinv
  obtain ⟨hc, -⟩ := hinv
  obtain ⟨out, t, hrun, ht, hle, hbits⟩ := rfeeds_conserve_bits bs s hr hc
  have hpending : t.readerPending.length ≤ 8 := by rwa [length_readerPending t (by omega)]
  refine ⟨t, hrun, ?_, ?_, hpending⟩
  · rw [hbits, fieldsOf_flatMap out (by omega)]
    rwa [← valueOf_eq_ofNat]
  · rw [hbits, drop_flatMap_bitsOf out (by omega)]

/-- Settles O50: the writer stream is the encoded stream, whose fields are the fields pushed. -/
theorem writerReaderRoundTrip : Obligations.WriterReaderRoundTrip := by
  intro fs s u hrs hws hru hcu
  refine ⟨_, writerContentLaw fs s hrs hws, ?_⟩
  rw [List.drop_left, drive_readerStream_of_clean _ hru hcu, fieldsOf_byteBits_encodedStream]

/-- Settles O51: the first bytes of a writer stream hold the first bits, and these the first fields. -/
theorem truncatedStreamDecodesToItsStart : Obligations.TruncatedStreamDecodesToItsStart := by
  intro fs k u hru hcu hk
  have hbits : byteBits ((encodedStream fs).take k) = (padded (fieldBits fs)).take (8 * k) := by
    rw [← byteBits_encodedStream]
    exact take_flatMap_bitsOf _ k
  have hlen : 8 * k ≤ (padded (fieldBits fs)).length := by
    rw [← byteBits_encodedStream, length_byteBits]
    omega
  rw [drive_readerStream_of_clean _ hru hcu, hbits, fieldsOf_take _ hlen, fieldsOf_padded_fieldBits]

end Sys2Proof.Machine

/-! SUPPORT. Clean channels (10_state.md R28): a command sequence that leaves no stream open on a channel leaves the
channel clean. -/

namespace Sys2Proof.Machine

open Framing

/-- After a reset a run over commands completes, and keeps ILL, the pending inputs and the fact of a reset. -/
theorem drive_completes (is : List Instr) : ∀ {s : State}, s.hasBeenReset = true →
    ∃ t, drive is s = .next t ∧ t.ill = s.ill ∧ t.inputs = s.inputs ∧ t.hasBeenReset = s.hasBeenReset := by
  induction is with
  | nil => exact fun {s} _ => ⟨s, rfl, rfl, rfl, rfl⟩
  | cons i is ih =>
    intro s hr
    obtain ⟨u, hu⟩ := exec_completes i s
    obtain ⟨hill, hinputs, hreset⟩ := exec_common_frame hu
    obtain ⟨t, ht, hill', hinputs', hreset'⟩ := ih (hreset.trans hr)
    exact ⟨t, (drive_cons is hr hu).trans ht, hill'.trans hill, hinputs'.trans hinputs, hreset'.trans hreset⟩

/-- What makes `Clean` mean that the channel of `part` is clean: the end of a stream establishes it, ended or
discarded, and the commands of the other channel keep it. -/
structure CleanLaw (part : Instr → Part) (Clean : State → Prop) : Prop where
  of_end : ∀ {i s t}, part i = .finish ∨ part i = .abandon → exec i s = .next t → Clean t
  of_other : ∀ {i s t}, part i = .other → exec i s = .next t → Clean s → Clean t

theorem writerCleanLaw : CleanLaw writerPart State.WriterClean where
  of_end {i s t} hp h := by
    cases i with
    | wfin => rw [exec_wfin_eq] at h; cases h; exact ⟨rfl, rfl⟩
    | wabort => cases h; exact ⟨rfl, rfl⟩
    | nop | wpush _ | rfeed _ | rend => simp [writerPart] at hp
  of_other {i s t} hp h hs := by
    cases i with
    | nop | rend => cases h; exact hs
    | rfeed b => rw [exec_rfeed_eq] at h; cases h; exact hs
    | wpush _ | wfin | wabort => cases hp

theorem readerCleanLaw : CleanLaw readerPart State.ReaderClean where
  of_end {i s t} hp h := by
    cases i with
    | rend => cases h; exact ⟨rfl, rfl⟩
    | nop | wpush _ | wfin | wabort | rfeed _ => simp [readerPart] at hp
  of_other {i s t} hp h hs := by
    cases i with
    | nop | wabort => cases h; exact hs
    | wpush v => rw [exec_wpush_eq] at h; cases h; exact hs
    | wfin => rw [exec_wfin_eq] at h; cases h; exact hs
    | rfeed _ | rend => cases hp

/-- A channel with no stream left open is clean, if it was clean unless a stream was open before. -/
theorem CleanLaw.of_not_leavesOpen {part : Instr → Part} {Clean : State → Prop} (law : CleanLaw part Clean)
    (is : List Instr) : ∀ {s t : State} {isOpen : Bool}, s.hasBeenReset = true → (isOpen = false → Clean s) →
      leavesOpen part isOpen is = false → drive is s = .next t → Clean t := by
  induction is with
  | nil =>
    intro s t isOpen _ hs hopen h
    cases h
    exact hs hopen
  | cons i is ih =>
    intro s t isOpen hr hs hopen h
    obtain ⟨u, hu⟩ := exec_completes i s
    have hru : u.hasBeenReset = true := (exec_common_frame hu).2.2.trans hr
    rw [drive_cons is hr hu] at h
    rw [leavesOpen] at hopen
    cases hp : part i <;> rw [hp] at hopen
    case element => exact ih hru (by simp) hopen h
    case finish => exact ih hru (fun _ => law.of_end (.inl hp) hu) hopen h
    case abandon => exact ih hru (fun _ => law.of_end (.inr hp) hu) hopen h
    case other => exact ih hru (fun ho => law.of_other hp hu (hs ho)) hopen h

/-- Settles O49: the run completes, and each channel is clean by its law. -/
theorem commandsLeavingNoStreamOpenEndClean : Obligations.CommandsLeavingNoStreamOpenEndClean := by
  intro is s hr hw hread hopen
  rw [leavesNoStreamOpen, Bool.and_eq_true, Bool.not_eq_true', Bool.not_eq_true'] at hopen
  obtain ⟨hopenW, hopenR⟩ := hopen
  obtain ⟨t, ht, -⟩ := drive_completes is hr
  exact ⟨t, ht, writerCleanLaw.of_not_leavesOpen is hr (fun _ => hw) hopenW ht,
    readerCleanLaw.of_not_leavesOpen is hr (fun _ => hread) hopenR ht⟩

end Sys2Proof.Machine

/-! SUPPORT. The stream framing duty (43_host_sequences.md R92): what a channel holds in the middle of a stream, command by
command, and what it has emitted when every stream is ended. -/

namespace Sys2Proof.Machine

open BitStream Framing

/-- What a channel does with a framed stream. `Holds base acc s`: the elements `acc` of an unended stream have been
taken, and before them `base` was out. `sent n l` are the elements sent for stream `n`, `encoded acc` is what a whole
stream of the elements `acc` comes out as. -/
structure StreamLaw {α β : Type} (part : Instr → Part) (element? : Instr → Option α) (sent : Nat → List Sent → List α)
    (encoded : List α → List β) (Holds : List β → List α → State → Prop) : Prop where
  element_iff : ∀ i, part i = .element ↔ (element? i).isSome
  sent_cons : ∀ n x l, sent n (x :: l) = (if x.stream = n then (element? x.command).toList else []) ++ sent n l
  sent_eq_nil : ∀ {n l}, (∀ x ∈ l, x.stream = n → part x.command ≠ .element) → sent n l = []
  of_element : ∀ {i a base acc s t}, element? i = some a → exec i s = .next t → Holds base acc s →
    Holds base (acc ++ [a]) t
  of_finish : ∀ {i base acc s t}, part i = .finish → exec i s = .next t → Holds base acc s →
    Holds (base ++ encoded acc) [] t
  of_abandon : ∀ {i base s t}, part i = .abandon → exec i s = .next t → Holds base [] s → Holds base [] t
  of_other : ∀ {i base acc s t}, part i = .other → exec i s = .next t → Holds base acc s → Holds base acc t

/-- The elements taken so far that belong to stream `n`: all, if `n` is in progress. -/
def takenOf {α : Type} (current : Option Nat) (acc : List α) (n : Nat) : List α := if current = some n then acc else []

@[simp] theorem takenOf_none {α : Type} (acc : List α) (n : Nat) : takenOf none acc n = [] := rfl

@[simp] theorem takenOf_nil {α : Type} (current : Option Nat) (n : Nat) : takenOf current ([] : List α) n = [] := by
  simp [takenOf]

theorem takenOf_self {α : Type} (acc : List α) (n : Nat) : takenOf (some n) acc n = acc := by simp [takenOf]

theorem takenOf_some_of_ne {α : Type} (acc : List α) {m n : Nat} (h : m ≠ n) : takenOf (some m) acc n = [] := by
  simp [takenOf, h]

/-- Where a command of `n` may come next, everything taken belongs to `n`. -/
theorem takenOf_of_mayContinue {α : Type} {ended : List Nat} {current : Option Nat} {n : Nat} {acc : List α}
    (h : mayContinue ended current n = true) (hacc : current = none → acc = []) (k : Nat) :
    takenOf current acc k = takenOf (some n) acc k := by
  rcases mayContinue_cases h with rfl | ⟨rfl, -⟩
  · rfl
  · simp [hacc rfl]

section StreamLaw

variable {α β : Type} {part : Instr → Part} {element? : Instr → Option α} {sent : Nat → List Sent → List α}
  {encoded : List α → List β} {Holds : List β → List α → State → Prop}

/-- A command that carries no element is sent for no stream's elements. -/
theorem StreamLaw.sent_cons_of_ne_element (law : StreamLaw part element? sent encoded Holds) {x : Sent}
    (h : part x.command ≠ .element) (n : Nat) (l : List Sent) : sent n (x :: l) = sent n l := by
  have hnone : element? x.command = none := by simpa [law.element_iff] using h
  rw [law.sent_cons, hnone]
  simp

/-- The streams that are still to end come out whole: the one in progress with what was taken of it. By the
commands: an element is appended to the stream in progress, the end of a stream emits it, and after it the
stream neither continues nor ends again. -/
theorem StreamLaw.drive_framed (law : StreamLaw part element? sent encoded Holds) (l : List Sent) :
    ∀ {ended : List Nat} {current : Option Nat} {base : List β} {acc : List α} {s t : State}, s.hasBeenReset = true →
      dutyKept part ended current l = true → (current = none → acc = []) → Holds base acc s →
      drive (l.map Sent.command) s = .next t →
      Holds (base ++ (finished part l).flatMap (fun n => encoded (takenOf current acc n ++ sent n l))) [] t := by
  induction l with
  | nil =>
    intro ended current base acc s t _ hduty hacc hs h
    rw [List.map_nil, drive_nil] at h
    cases h
    obtain rfl := hacc (by simpa [dutyKept] using hduty)
    simpa [finished] using hs
  | cons x l ih =>
    intro ended current base acc s t hr hduty hacc hs h
    obtain ⟨u, hu⟩ := exec_completes x.command s
    have hru : u.hasBeenReset = true := (exec_common_frame hu).2.2.trans hr
    rw [List.map_cons, drive_cons _ hr hu] at h
    rw [finished_cons]
    cases hp : part x.command <;> simp only [dutyKept, hp, Bool.and_eq_true] at hduty
    case element =>
      obtain ⟨a, ha⟩ := Option.isSome_iff_exists.mp ((law.element_iff _).mp hp)
      have hnext := ih hru hduty.2 (by simp) (law.of_element ha hu hs) h
      have htaken (k : Nat) : takenOf (some x.stream) (acc ++ [a]) k ++ sent k l
          = takenOf current acc k ++ sent k (x :: l) := by
        rw [takenOf_of_mayContinue hduty.1 hacc, law.sent_cons, ha]
        by_cases hk : x.stream = k
        · simp [hk, takenOf_self]
        · simp [hk, takenOf_some_of_ne]
      simpa [htaken] using hnext
    case finish =>
      have hnext := ih hru hduty.2 (fun _ => rfl) (law.of_finish hp hu hs) h
      have hover := dutyKept_of_ended hduty.2 (List.mem_cons_self ..) (by simp)
      have hnil : sent x.stream l = [] := law.sent_eq_nil fun y hy hn => (hover y hy hn).1
      have hothers : ∀ k ∈ finished part l, takenOf (some x.stream) acc k = [] := by
        intro k hk
        refine takenOf_some_of_ne acc fun hxk => ?_
        obtain ⟨y, hy, hyk⟩ := List.mem_map.mp hk
        obtain ⟨hmem, hfin⟩ := List.mem_filter.mp hy
        exact (hover y hmem (hyk.trans hxk.symm)).2 (by simpa using hfin)
      have hrest : (finished part l).flatMap (fun n => encoded (takenOf current acc n ++ sent n (x :: l)))
          = (finished part l).flatMap (fun n => encoded (sent n l)) := by
        refine List.flatMap_congr fun k hk => ?_
        rw [takenOf_of_mayContinue hduty.1 hacc, hothers k hk, law.sent_cons_of_ne_element (by simp [hp]),
          List.nil_append]
      rw [if_pos rfl, List.singleton_append, List.flatMap_cons, hrest, takenOf_of_mayContinue hduty.1 hacc,
        takenOf_self, law.sent_cons_of_ne_element (by simp [hp]), hnil, List.append_nil, ← List.append_assoc]
      simpa using hnext
    case abandon =>
      obtain rfl : current = none := by simpa using hduty.1
      obtain rfl := hacc rfl
      have hnext := ih hru hduty.2 (fun _ => rfl) (law.of_abandon hp hu hs) h
      simpa [law.sent_cons_of_ne_element (x := x) (by simp [hp])] using hnext
    case other =>
      have hnext := ih hru hduty hacc (law.of_other hp hu hs) h
      simpa [law.sent_cons_of_ne_element (x := x) (by simp [hp])] using hnext

end StreamLaw

/-- In the middle of a writer stream: its fields' bits are those of the bytes out since its start and the pending ones. -/
def WriterHolds (base : List Byte) (fs : List Field) (s : State) : Prop :=
  s.WriterInv ∧ ∃ out : List Byte, s.wOut = base ++ out ∧ fieldBits fs = out.flatMap bitsOf ++ s.writerPending

/-- In the middle of a reader stream: its bytes' bits are those of the values out since its start and the pending ones. -/
def ReaderHolds (base : List Value) (bs : List Byte) (s : State) : Prop :=
  s.ReaderInv ∧ ∃ out : List Field, s.rOut = base ++ out.map valueOf
    ∧ byteBits bs = out.flatMap bitsOf ++ s.readerPending

/-- Between two streams no bit is pending and all bytes are those of ended streams. -/
theorem writerHolds_nil_iff {base : List Byte} {s : State} : WriterHolds base [] s ↔ s.WriterClean ∧ s.wOut = base := by
  constructor
  · rintro ⟨⟨hcnt, hacc⟩, out, hout, hbits⟩
    have hlen := congrArg List.length hbits
    rw [List.length_append, length_flatMap_bitsOf, length_writerPending s (by omega)] at hlen
    simp only [fieldBits, List.flatMap_nil, List.length_nil] at hlen
    have hcnt0 : s.wCnt.toNat = 0 := by omega
    obtain rfl : out = [] := List.eq_nil_of_length_eq_zero (by omega)
    rw [hcnt0] at hacc
    exact ⟨⟨BitVec.eq_of_toNat_eq hcnt0, BitVec.eq_of_toNat_eq (by simp; omega)⟩, by simpa using hout⟩
  · rintro ⟨hclean, rfl⟩
    refine ⟨⟨by simp [hclean.1], by simp [hclean.2]⟩, [], by simp, ?_⟩
    rw [writerPending_of_clean hclean]
    rfl

theorem readerHolds_nil_iff {base : List Value} {s : State} : ReaderHolds base [] s ↔ s.ReaderClean ∧ s.rOut = base := by
  constructor
  · rintro ⟨⟨hcnt, hacc⟩, out, hout, hbits⟩
    have hlen := congrArg List.length hbits
    rw [List.length_append, length_flatMap_bitsOf, length_readerPending s (by omega)] at hlen
    simp only [byteBits, List.flatMap_nil, List.length_nil] at hlen
    have hcnt0 : s.rCnt.toNat = 0 := by omega
    obtain rfl : out = [] := List.eq_nil_of_length_eq_zero (by omega)
    rw [hcnt0] at hacc
    exact ⟨⟨BitVec.eq_of_toNat_eq hcnt0, BitVec.eq_of_toNat_eq (by simp; omega)⟩, by simpa using hout⟩
  · rintro ⟨hclean, rfl⟩
    refine ⟨⟨by simp [hclean.1], by simp [hclean.2]⟩, [], by simp, ?_⟩
    rw [readerPending_of_clean hclean]
    rfl

/-- WPUSH takes a field into the stream in progress. -/
theorem writerHolds_wpush {v : Field} {base : List Byte} {fs : List Field} {s t : State}
    (h : exec (.wpush v) s = .next t) (hs : WriterHolds base fs s) : WriterHolds base (fs ++ [v]) t := by
  obtain ⟨hinv, out, hout, hbits⟩ := hs
  obtain ⟨out', t', ht', hframe, -, hbits'⟩ := wpush_conserves_bits v s hinv.1
  obtain rfl : t' = t := by simpa [ht'] using h
  refine ⟨exec_keeps_writerInv hinv h, out ++ out', by rw [hframe, hout, List.append_assoc], ?_⟩
  rw [fieldBits] at hbits ⊢
  rw [List.flatMap_append, List.flatMap_singleton, hbits, List.append_assoc, hbits', List.flatMap_append,
    List.append_assoc]

/-- WFIN emits the rest of the stream in progress, padded. -/
theorem writerHolds_wfin {base : List Byte} {fs : List Field} {s t : State} (h : exec .wfin s = .next t)
    (hs : WriterHolds base fs s) : WriterHolds (base ++ encodedStream fs) [] t := by
  obtain ⟨hinv, out, hout, hbits⟩ := hs
  obtain ⟨last, hfin, hlast⟩ := wfin_pads_pending_bits s hinv.1
  have hstream : encodedStream fs = out ++ last := by
    rw [encodedStream, hbits, padded_flatMap_append, ← hlast, ← List.flatMap_append, bytesOf_flatMap_bitsOf]
  rw [hfin] at h
  cases h
  exact writerHolds_nil_iff.mpr ⟨⟨rfl, rfl⟩, by simp [hout, hstream]⟩

/-- RFEED takes a byte into the stream in progress. -/
theorem readerHolds_rfeed {b : Byte} {base : List Value} {bs : List Byte} {s t : State}
    (h : exec (.rfeed b) s = .next t) (hs : ReaderHolds base bs s) : ReaderHolds base (bs ++ [b]) t := by
  obtain ⟨hinv, out, hout, hbits⟩ := hs
  obtain ⟨out', t', ht', hframe, -, hbits'⟩ := rfeed_conserves_bits b s hinv.1
  obtain rfl : t' = t := by simpa [ht'] using h
  refine ⟨exec_keeps_readerInv hinv h, out ++ out', by rw [hframe, hout, List.map_append, List.append_assoc], ?_⟩
  rw [byteBits] at hbits ⊢
  rw [List.flatMap_append, List.flatMap_singleton, hbits, List.append_assoc, hbits', List.flatMap_append,
    List.append_assoc]

/-- REND drops the rest of the stream in progress: fewer bits than a field. -/
theorem readerHolds_rend {base : List Value} {bs : List Byte} {s t : State} (h : exec .rend s = .next t)
    (hs : ReaderHolds base bs s) : ReaderHolds (base ++ (fieldsOf (byteBits bs)).map valueOf) [] t := by
  obtain ⟨⟨hcnt, -⟩, out, hout, hbits⟩ := hs
  have hfields : fieldsOf (byteBits bs) = out := by
    rw [hbits, fieldsOf_flatMap out (by rw [length_readerPending s (by omega)]; omega)]
  rw [exec_rend_eq] at h
  cases h
  exact readerHolds_nil_iff.mpr ⟨⟨rfl, rfl⟩, by simp [hout, hfields]⟩

theorem writerStreamLaw : StreamLaw writerPart pushedField? fieldsSent encodedStream WriterHolds where
  element_iff := writerPart_eq_element
  sent_cons := fieldsSent_cons
  sent_eq_nil := fieldsSent_eq_nil
  of_element {i a base fs s t} ha h hs := by
    cases i with
    | wpush v => cases ha; exact writerHolds_wpush h hs
    | nop | wfin | wabort | rfeed _ | rend => cases ha
  of_finish {i base fs s t} hp h hs := by
    cases i with
    | wfin => exact writerHolds_wfin h hs
    | nop | wpush _ | wabort | rfeed _ | rend => cases hp
  of_abandon {i base s t} hp h hs := by
    rw [writerHolds_nil_iff] at hs ⊢
    cases i with
    | wabort => cases h; exact ⟨⟨rfl, rfl⟩, hs.2⟩
    | nop | wpush _ | wfin | rfeed _ | rend => cases hp
  of_other {i base fs s t} hp h hs := by
    cases i with
    | nop | rend => cases h; exact hs
    | rfeed b => rw [exec_rfeed_eq] at h; cases h; exact hs
    | wpush _ | wfin | wabort => cases hp

theorem readerStreamLaw :
    StreamLaw readerPart fedByte? bytesSent (fun bs => (fieldsOf (byteBits bs)).map valueOf) ReaderHolds where
  element_iff := readerPart_eq_element
  sent_cons := bytesSent_cons
  sent_eq_nil := bytesSent_eq_nil
  of_element {i a base bs s t} ha h hs := by
    cases i with
    | rfeed b => cases ha; exact readerHolds_rfeed h hs
    | nop | wpush _ | wfin | wabort | rend => cases ha
  of_finish {i base bs s t} hp h hs := by
    cases i with
    | rend => exact readerHolds_rend h hs
    | nop | wpush _ | wfin | wabort | rfeed _ => cases hp
  of_abandon {i base s t} hp _ _ := by cases i <;> cases hp
  of_other {i base bs s t} hp h hs := by
    cases i with
    | nop | wabort => cases h; exact hs
    | wpush v => rw [exec_wpush_eq] at h; cases h; exact hs
    | wfin => rw [exec_wfin_eq] at h; cases h; exact hs
    | rfeed _ | rend => cases hp

/-- Settles O60: each channel by its stream law, from no stream in progress to none. -/
theorem framedStreamsComeOutWhole : Obligations.FramedStreamsComeOutWhole := by
  intro sent s hr hw hread hduty
  rw [framingDuty, Bool.and_eq_true] at hduty
  obtain ⟨hdutyW, hdutyR⟩ := hduty
  obtain ⟨t, hrun, hill, hinputs, hreset⟩ := drive_completes (sent.map Sent.command) hr
  have hwriter := writerStreamLaw.drive_framed sent hr hdutyW (fun _ => rfl) (writerHolds_nil_iff.mpr ⟨hw, rfl⟩) hrun
  have hreader := readerStreamLaw.drive_framed sent hr hdutyR (fun _ => rfl) (readerHolds_nil_iff.mpr ⟨hread, rfl⟩) hrun
  obtain ⟨⟨hwCnt, hwAcc⟩, hwOut⟩ := writerHolds_nil_iff.mp hwriter
  obtain ⟨⟨hrCnt, hrAcc⟩, hrOut⟩ := readerHolds_nil_iff.mp hreader
  simp only [takenOf_none, List.nil_append] at hwOut hrOut
  rw [hrun, ← valueOf_eq_ofNat, ← hwOut, ← hrOut, ← hwCnt.trans hw.1.symm, ← hwAcc.trans hw.2.symm,
    ← hrCnt.trans hread.1.symm, ← hrAcc.trans hread.2.symm, ← hill, ← hinputs, ← hreset]

end Sys2Proof.Machine

/-! SUPPORT. Stale accumulator bits (10_state.md R15, R17; 92_eei_decisions.md D6): a command's outputs and the pending bits
it leaves are fixed by the pending bits before it. -/

namespace Sys2Proof.Machine

open BitStream

theorem SameButStale.wCnt_eq {s s' : State} (h : SameButStale s s') : s'.wCnt = s.wCnt := by
  rw [h.rest_eq]

theorem SameButStale.rCnt_eq {s s' : State} (h : SameButStale s s') : s'.rCnt = s.rCnt := by
  rw [h.rest_eq]

/-- The host sees no stale bit. -/
theorem SameButStale.observe_eq {s s' : State} (h : SameButStale s s') : s.observe = s'.observe := by
  rw [h.rest_eq]
  rfl

theorem SameButStale.with_inputs {s s' : State} (h : SameButStale s s') (l : List HostInput) :
    SameButStale { s with inputs := l } { s' with inputs := l } :=
  ⟨h.wCnt_le, h.rCnt_le, by rw [h.rest_eq], h.writerPending_eq, h.readerPending_eq⟩

theorem SameButStale.raiseIllegalCommand {s s' : State} (h : SameButStale s s') :
    SameButStale s.raiseIllegalCommand s'.raiseIllegalCommand :=
  ⟨h.wCnt_le, h.rCnt_le, by rw [h.rest_eq]; rfl, h.writerPending_eq, h.readerPending_eq⟩

theorem SameButStale.applyReset {s s' : State} (h : SameButStale s s') : SameButStale s.applyReset s'.applyReset :=
  ⟨by simp, by simp, by rw [h.rest_eq]; rfl, rfl, rfl⟩

/-- A change of the writer only, with the same bytes out and the same bits pending. -/
theorem SameButStale.of_writer {s s' t t' : State} {out : List Byte} (h : SameButStale s s')
    (ht : t = { s with wAcc := t.wAcc, wCnt := t.wCnt, wOut := s.wOut ++ out })
    (ht' : t' = { s' with wAcc := t'.wAcc, wCnt := t'.wCnt, wOut := s'.wOut ++ out })
    (hle : t.wCnt.toNat ≤ 7) (hcnt : t'.wCnt = t.wCnt) (hp : t'.writerPending = t.writerPending) :
    SameButStale t t' where
  wCnt_le := hle
  rCnt_le := by rw [ht]; exact h.rCnt_le
  rest_eq := by rw [ht, ht', hcnt, h.rest_eq]
  writerPending_eq := hp
  readerPending_eq := by rw [ht, ht']; exact h.readerPending_eq

/-- A change of the reader only, with the same values out and the same bits pending. -/
theorem SameButStale.of_reader {s s' t t' : State} {out : List Value} (h : SameButStale s s')
    (ht : t = { s with rAcc := t.rAcc, rCnt := t.rCnt, rOut := s.rOut ++ out })
    (ht' : t' = { s' with rAcc := t'.rAcc, rCnt := t'.rCnt, rOut := s'.rOut ++ out })
    (hle : t.rCnt.toNat ≤ 8) (hcnt : t'.rCnt = t.rCnt) (hp : t'.readerPending = t.readerPending) :
    SameButStale t t' where
  wCnt_le := by rw [ht]; exact h.wCnt_le
  rCnt_le := hle
  rest_eq := by rw [ht, ht', hcnt, h.rest_eq]
  writerPending_eq := by rw [ht, ht']; exact h.writerPending_eq
  readerPending_eq := hp

/-- WPUSH: the bytes and the bits left are a decomposition of the pending bits and the field's. -/
theorem SameButStale.exec_wpush {s s' : State} (h : SameButStale s s') (v : Field) :
    ∃ t t', exec (.wpush v) s = .next t ∧ exec (.wpush v) s' = .next t' ∧ SameButStale t t' := by
  have hle := h.wCnt_le
  have hcnt := h.wCnt_eq
  obtain ⟨out, t, ht, hframe, htc, hbits⟩ := wpush_conserves_bits v s hle
  obtain ⟨out', t', ht', hframe', htc', hbits'⟩ := wpush_conserves_bits v s' (by rwa [hcnt])
  rw [h.writerPending_eq, hbits] at hbits'
  rw [hcnt] at htc'
  have hout : out = out' := by
    rw [← bytesOf_flatMap out (rest := t.writerPending) (by rw [length_writerPending t (by omega)]; omega), hbits',
      bytesOf_flatMap out' (by rw [length_writerPending t' (by omega)]; omega)]
  subst hout
  exact ⟨t, t', ht, ht', h.of_writer hframe hframe' (by omega) (BitVec.eq_of_toNat_eq (htc'.trans htc.symm))
    (List.append_cancel_left hbits').symm⟩

/-- WFIN: the byte is the padded pending bits, and none is left. -/
theorem SameButStale.exec_wfin {s s' : State} (h : SameButStale s s') :
    ∃ t t', exec .wfin s = .next t ∧ exec .wfin s' = .next t' ∧ SameButStale t t' := by
  obtain ⟨out, ht, hout⟩ := wfin_pads_pending_bits s h.wCnt_le
  obtain ⟨out', ht', hout'⟩ := wfin_pads_pending_bits s' (by rw [h.wCnt_eq]; exact h.wCnt_le)
  have heq : out = out' := by
    rw [← bytesOf_flatMap_bitsOf out, hout, ← h.writerPending_eq, ← hout', bytesOf_flatMap_bitsOf]
  subst heq
  exact ⟨_, _, ht, ht', h.of_writer rfl rfl (by simp) rfl rfl⟩

/-- WABORT: no bit is left. -/
theorem SameButStale.exec_wabort {s s' : State} (h : SameButStale s s') :
    ∃ t t', exec .wabort s = .next t ∧ exec .wabort s' = .next t' ∧ SameButStale t t' :=
  ⟨_, _, exec_wabort_eq s, exec_wabort_eq s', h.of_writer (out := []) (by simp) (by simp) (by simp) rfl rfl⟩

/-- RFEED: the values and the bits left are a decomposition of the pending bits and the byte's. -/
theorem SameButStale.exec_rfeed {s s' : State} (h : SameButStale s s') (b : Byte) :
    ∃ t t', exec (.rfeed b) s = .next t ∧ exec (.rfeed b) s' = .next t' ∧ SameButStale t t' := by
  have hle := h.rCnt_le
  have hcnt := h.rCnt_eq
  obtain ⟨out, t, ht, hframe, htc, hbits⟩ := rfeed_conserves_bits b s hle
  obtain ⟨out', t', ht', hframe', htc', hbits'⟩ := rfeed_conserves_bits b s' (by rwa [hcnt])
  rw [h.readerPending_eq, hbits] at hbits'
  rw [hcnt] at htc'
  have hout : out = out' := by
    rw [← fieldsOf_flatMap out (rest := t.readerPending) (by rw [length_readerPending t (by omega)]; omega), hbits',
      fieldsOf_flatMap out' (by rw [length_readerPending t' (by omega)]; omega)]
  subst hout
  exact ⟨t, t', ht, ht', h.of_reader hframe hframe' (by omega) (BitVec.eq_of_toNat_eq (htc'.trans htc.symm))
    (List.append_cancel_left hbits').symm⟩

/-- REND: no bit is left. -/
theorem SameButStale.exec_rend {s s' : State} (h : SameButStale s s') :
    ∃ t t', exec .rend s = .next t ∧ exec .rend s' = .next t' ∧ SameButStale t t' :=
  ⟨_, _, exec_rend_eq s, exec_rend_eq s', h.of_reader (out := []) (by simp) (by simp) (by simp) rfl rfl⟩

theorem SameButStale.exec {s s' : State} (h : SameButStale s s') (i : Instr) :
    ∃ t t', exec i s = .next t ∧ exec i s' = .next t' ∧ SameButStale t t' := by
  cases i with
  | nop => exact ⟨s, s', rfl, rfl, h⟩
  | wpush v => exact h.exec_wpush v
  | wfin => exact h.exec_wfin
  | wabort => exact h.exec_wabort
  | rfeed b => exact h.exec_rfeed b
  | rend => exact h.exec_rend

theorem SameButStale.execWord {s s' : State} (h : SameButStale s s') (w : Command) :
    ∃ t t', execWord w s = .next t ∧ execWord w s' = .next t' ∧ SameButStale t t' := by
  match hd : decode w with
  | .ok i => simpa only [execWord_of_ok hd] using h.exec i
  | .error e => exact ⟨_, _, execWord_of_error hd s, execWord_of_error hd s', h.raiseIllegalCommand⟩

/-- A step takes states with the same pending bits to states with the same pending bits. -/
theorem SameButStale.step {s s' : State} (h : SameButStale s s') (hr : s.hasBeenReset = true) :
    ∃ t t', step s = .next t ∧ step s' = .next t' ∧ SameButStale t t' := by
  have hr' : s'.hasBeenReset = true := by rw [h.rest_eq]; exact hr
  have hinputs : s'.inputs = s.inputs := by rw [h.rest_eq]
  match hi : s.inputs with
  | [] => exact ⟨s, s', step_of_inputs_nil hi, step_of_inputs_nil (hinputs.trans hi), h⟩
  | .reset w :: rest =>
    exact ⟨_, _, step_of_reset hi, step_of_reset (hinputs.trans hi), (h.with_inputs rest).applyReset⟩
  | .command w :: rest =>
    rw [step_of_command hr hi, step_of_command hr' (hinputs.trans hi)]
    exact (h.with_inputs rest).execWord w

/-- Settles O37: the step keeps the relation, and the host sees the same in related states. -/
theorem staleAccumulatorBitsAreUnobservable : Obligations.StaleAccumulatorBitsAreUnobservable := by
  intro s s' hr h
  obtain ⟨t, t', ht, ht', hsame⟩ := h.step hr
  exact ⟨t, t', ht, ht', hsame, hsame.observe_eq⟩

end Sys2Proof.Machine

/-! SUPPORT. The host's canonical numbers and its encode and decode (43_host_sequences.md R84 to R88). -/

namespace Sys2Proof.Machine

open BitStream Driver

theorem pairwise_insertNumber {x : Int} {ys : List Int} (h : ys.Pairwise (· < ·)) :
    (insertNumber x ys).Pairwise (· < ·) := by
  induction ys with
  | nil => simp [insertNumber]
  | cons y ys ih =>
    obtain ⟨hy, hys⟩ := List.pairwise_cons.mp h
    rw [insertNumber]
    split
    next hlt =>
      refine List.pairwise_cons.mpr ⟨fun z hz => ?_, h⟩
      rcases List.mem_cons.mp hz with rfl | hz
      · exact hlt
      · exact hlt.trans (hy z hz)
    next hge =>
      split
      next => exact h
      next hne =>
        refine List.pairwise_cons.mpr ⟨fun z hz => ?_, ih hys⟩
        rcases mem_insertNumber.mp hz with rfl | hz
        · omega
        · exact hy z hz

theorem pairwise_canonicalise (ns : List Int) : (canonicalise ns).Pairwise (· < ·) := by
  induction ns with
  | nil => exact List.Pairwise.nil
  | cons n ns ih => exact pairwise_insertNumber ih

theorem mem_violations {x : Int} {ns : List Int} : x ∈ violations ns ↔ x ∈ ns ∧ ¬ (1 ≤ x ∧ x ≤ 300) := by
  rw [violations, List.mem_filter, mem_canonicalise]
  refine and_congr_right fun _ => ?_
  simp [inDomain]
  omega

/-- Settles O52: insertion keeps the order and adds its number, and a filter of ascending numbers is ascending. -/
theorem hostCanonicalisesAndChecksRange : Obligations.HostCanonicalisesAndChecksRange := fun ns =>
  ⟨pairwise_canonicalise ns, fun _ => mem_canonicalise, (pairwise_canonicalise ns).filter _, fun _ => mem_encodable,
    (pairwise_canonicalise ns).filter _, fun _ => mem_violations⟩

/-- Ascending numbers are fixed by their set. -/
theorem canonicalise_congr {ns ms : List Int} (h : ∀ x, x ∈ ns ↔ x ∈ ms) : canonicalise ns = canonicalise ms :=
  (pairwise_canonicalise ns).eq_of_mem_iff (pairwise_canonicalise ms) fun x => by
    rw [mem_canonicalise, mem_canonicalise, h x]

/-- Settles O55: the commands of encode are made of the canonical numbers. -/
theorem hostEncodeDependsOnTheSetOnly : Obligations.HostEncodeDependsOnTheSetOnly := by
  intro ns ms s h
  rw [hostEncode, hostEncode, encodeCommands, encodeCommands, encodable, encodable, canonicalise_congr h]

/-- The field the host pushes for a number (R84). -/
def Driver.fieldOf (x : Int) : Field := BitVec.ofInt 9 (x - 1)

theorem encodeCommands_eq (ns : List Int) :
    encodeCommands ns = ((encodable ns).map fieldOf).map .wpush ++ [.wfin] := by
  rw [encodeCommands, List.map_map]
  rfl

/-- The value offset of the reader undoes that of the host, for a number in the domain (R88). -/
theorem toNat_fieldOf_succ {x : Int} (h1 : 1 ≤ x) (h300 : x ≤ 300) : (((fieldOf x).toNat + 1 : Nat) : Int) = x := by
  rw [fieldOf, BitVec.toNat_ofInt]
  omega

/-- The host's encode on a clean writer is the encoded stream of the numbers' fields (R84). -/
theorem hostEncode_of_clean (ns : List Int) {s : State} (hr : s.hasBeenReset = true) (hclean : s.WriterClean) :
    hostEncode s ns = some (encodedStream ((encodable ns).map fieldOf)) := by
  rw [hostEncode, encodeCommands_eq, writerContentLaw _ s hr hclean]
  simp

/-- Settles O53: the framing formulas undo each other, and so do the offsets. -/
theorem hostDecodeOfEncodeIsSort : Obligations.HostDecodeOfEncodeIsSort := by
  intro ns s u hrs hcs hru hcu
  refine ⟨_, hostEncode_of_clean ns hrs hcs, ?_, ?_, fun hdom => ?_⟩
  · rw [length_encodedStream, List.length_map]
  · rw [hostDecode_of_clean _ hru hcu, fieldsOf_byteBits_encodedStream, List.map_map]
    congr 1
    refine (List.map_congr_left fun x hx => ?_).trans (List.map_id _)
    obtain ⟨-, h1, h300⟩ := mem_encodable.mp hx
    exact toNat_fieldOf_succ h1 h300
  · refine List.filter_eq_self.mpr fun x hx => ?_
    simpa [inDomain] using hdom x (mem_canonicalise.mp hx)

end Sys2Proof.Machine

/-! SUPPORT. Back-pressure (70_reset_and_hazards.md R116): when a command fits, what a move does to the buffers, and that an
input is taken as it stands, whatever is presented after it. -/

namespace Sys2Proof.Machine

theorem fits_eq_true_iff {depth used n : Nat} : fits depth used n = true ↔ n = 0 ∨ used + n ≤ depth := by
  simp [fits]

theorem length_wBuffer (b : Buffered) : b.wBuffer.length = b.core.wOut.length - b.wTaken := List.length_drop

theorem length_rBuffer (b : Buffered) : b.rBuffer.length = b.core.rOut.length - b.rTaken := List.length_drop

/-- What `n` more elements do not fit, if the stream grows by them: it grows, to more than `depth` not consumed. -/
theorem fits_eq_false_iff {α : Type} {depth taken n : Nat} {old new : List α} (hprefix : old <+: new)
    (hlen : new.length = old.length + n) (htaken : taken ≤ old.length) :
    fits depth (old.length - taken) n = false ↔ new ≠ old ∧ depth < new.length - taken := by
  have hne : new ≠ old ↔ n ≠ 0 := by
    refine not_congr ⟨?_, fun h0 => (hprefix.eq_of_length (by omega)).symm⟩
    rintro rfl
    omega
  rw [← Bool.not_eq_true, fits_eq_true_iff, hne]
  omega

theorem held_of_ok {depth : Nat} {b : Buffered} {w : Command} {i : Instr} {rest : List HostInput}
    (hi : b.core.inputs = .command w :: rest) (hd : decode w = .ok i) (hr : b.core.hasBeenReset = true) :
    b.held depth = !b.commandFits depth i := by
  simp [Buffered.held, hi, hd, hr]

theorem held_of_error {depth : Nat} {b : Buffered} {w : Command} {e : DecodeReject} {rest : List HostInput}
    (hi : b.core.inputs = .command w :: rest) (hd : decode w = .error e) : b.held depth = false := by
  simp [Buffered.held, hi, hd]

theorem wAppends_with_inputs (i : Instr) (s : State) (l : List HostInput) :
    Instr.wAppends i { s with inputs := l } = Instr.wAppends i s := by cases i <;> rfl

theorem rAppends_with_inputs (i : Instr) (s : State) (l : List HostInput) :
    Instr.rAppends i { s with inputs := l } = Instr.rAppends i s := by cases i <;> rfl

/-- The step of a legal word appends what its command appends (R40). -/
theorem step_lengths_of_ok {s t : State} {w : Command} {i : Instr} {rest : List HostInput} (hinv : s.Inv)
    (hi : s.inputs = .command w :: rest) (hd : decode w = .ok i) (h : step s = .next t) :
    t.wOut.length = s.wOut.length + Instr.wAppends i s ∧ t.rOut.length = s.rOut.length + Instr.rAppends i s := by
  obtain ⟨hr, hw, hread, -⟩ := hinv
  rw [step_of_command hr hi, execWord_of_ok hd] at h
  simpa only [wAppends_with_inputs, rAppends_with_inputs] using
    exec_lengths (s := { s with inputs := rest }) hw.1 hread.1 h

theorem step_outputs_of_error {s t : State} {w : Command} {e : DecodeReject} {rest : List HostInput}
    (hr : s.hasBeenReset = true) (hi : s.inputs = .command w :: rest) (hd : decode w = .error e)
    (h : step s = .next t) : t.wOut = s.wOut ∧ t.rOut = s.rOut := by
  rw [step_of_command hr hi, execWord_of_error hd] at h
  cases h
  exact ⟨rfl, rfl⟩

/-- A command is held exactly while its output does not fit (R116). -/
theorem held_iff {depth : Nat} {b : Buffered} {w : Command} {rest : List HostInput} {t : State} (hinv : b.core.Inv)
    (hw : b.wTaken ≤ b.core.wOut.length) (hr : b.rTaken ≤ b.core.rOut.length)
    (hi : b.core.inputs = .command w :: rest) (h : step b.core = .next t) :
    b.held depth = true ↔
      (t.wOut ≠ b.core.wOut ∧ depth < t.wOut.length - b.wTaken)
      ∨ (t.rOut ≠ b.core.rOut ∧ depth < t.rOut.length - b.rTaken) := by
  match hd : decode w with
  | .ok i =>
    obtain ⟨hlenW, hlenR⟩ := step_lengths_of_ok hinv hi hd h
    obtain ⟨hprefixW, hprefixR⟩ := streamsOnlyGrow b.core t h
    rw [held_of_ok hi hd hinv.1, Buffered.commandFits, Bool.not_eq_true', Bool.and_eq_false_iff, length_wBuffer,
      length_rBuffer, fits_eq_false_iff hprefixW hlenW hw, fits_eq_false_iff hprefixR hlenR hr]
  | .error e =>
    obtain ⟨hout, hrout⟩ := step_outputs_of_error hinv.1 hi hd h
    simp [held_of_error hi hd, hout, hrout]

theorem bufferedStep_of_held {depth : Nat} {b : Buffered} (h : b.held depth = true) :
    bufferedStep depth .advance b = .next b := by
  simp [bufferedStep, h]

theorem bufferedStep_of_not_held {depth : Nat} {b : Buffered} {t : State} (h : b.held depth = false)
    (ht : step b.core = .next t) : bufferedStep depth .advance b = .next { b with core := t } := by
  simp [bufferedStep, h, ht]

theorem bufferedRun_cons {depth : Nat} {m : BufferedMove} {b c : Buffered} (ms : List BufferedMove)
    (h : bufferedStep depth m b = .next c) : bufferedRun depth (m :: ms) b = bufferedRun depth ms c := by
  rw [bufferedRun, h]

/-- Settles O57: a held command stays held, one not held steps, and `held_iff`. -/
theorem heldExactlyWhileOutputDoesNotFit : Obligations.HeldExactlyWhileOutputDoesNotFit := by
  refine fun depth b => ⟨fun h k => ?_, fun t => bufferedStep_of_not_held, fun w rest t => held_iff⟩
  induction k with
  | zero => rfl
  | succ k ih => rw [List.replicate_succ, bufferedRun_cons _ (bufferedStep_of_held h), ih]

/-- All that a move that completes can have done. -/
theorem bufferedStep_cases {depth : Nat} {m : BufferedMove} {b b' : Buffered} (h : bufferedStep depth m b = .next b') :
    (m = .advance ∧ b.held depth = true ∧ b' = b)
    ∨ (m = .advance ∧ b.held depth = false ∧ ∃ t, step b.core = .next t ∧ b' = { b with core := t })
    ∨ (m = .consumeW ∧ b' = { b with wTaken := b.wTaken + min 1 b.wBuffer.length })
    ∨ (m = .consumeR ∧ b' = { b with rTaken := b.rTaken + min 1 b.rBuffer.length })
    ∨ (m = .assertReset ∧ b' = { b with core := { b.core with inputs := resetOver b.core.inputs } }) := by
  cases m with
  | advance =>
    cases hheld : b.held depth with
    | true =>
      rw [bufferedStep_of_held hheld] at h
      cases h
      exact .inl ⟨rfl, rfl, rfl⟩
    | false =>
      match hs : step b.core with
      | .next t =>
        rw [bufferedStep_of_not_held hheld hs] at h
        cases h
        exact .inr (.inl ⟨rfl, rfl, t, rfl, rfl⟩)
      | .fault r => simp [bufferedStep, hheld, hs] at h
      | .refused r => simp [bufferedStep, hheld, hs] at h
  | consumeW => cases h; exact .inr (.inr (.inl ⟨rfl, rfl⟩))
  | consumeR => cases h; exact .inr (.inr (.inr (.inl ⟨rfl, rfl⟩)))
  | assertReset => cases h; exact .inr (.inr (.inr (.inr ⟨rfl, rfl⟩)))

/-- A step that is not held grows each stream by what fits its buffer. -/
theorem step_appends_fit {depth : Nat} {b : Buffered} {t : State} (hinv : b.core.Inv) (hheld : b.held depth = false)
    (h : step b.core = .next t) : ∃ n m,
      t.wOut.length = b.core.wOut.length + n ∧ fits depth b.wBuffer.length n = true
      ∧ t.rOut.length = b.core.rOut.length + m ∧ fits depth b.rBuffer.length m = true := by
  rcases step_cases h with ⟨-, rfl⟩ | ⟨w, rest, -, rfl⟩ | ⟨w, rest, hi, hr, -⟩
  · exact ⟨0, 0, rfl, rfl, rfl, rfl⟩
  · exact ⟨0, 0, rfl, rfl, rfl, rfl⟩
  · match hd : decode w with
    | .error e =>
      obtain ⟨hw, hr⟩ := step_outputs_of_error hr hi hd h
      exact ⟨0, 0, by rw [hw, Nat.add_zero], rfl, by rw [hr, Nat.add_zero], rfl⟩
    | .ok i =>
      obtain ⟨hlenW, hlenR⟩ := step_lengths_of_ok hinv hi hd h
      rw [held_of_ok hi hd hr, Bool.not_eq_false', Buffered.commandFits, Bool.and_eq_true] at hheld
      exact ⟨_, _, hlenW, hheld.1, hlenR, hheld.2⟩

/-- Settles O58: a step appends what fits, the host consumes from a buffer at most what is in it, and reset is no output. -/
theorem buffersNeverExceedTheirDepth : Obligations.BuffersNeverExceedTheirDepth := by
  intro depth m b b' hinv hw hr hdw hdr h
  rcases bufferedStep_cases h with ⟨-, -, rfl⟩ | ⟨-, hheld, t, ht, rfl⟩ | ⟨-, rfl⟩ | ⟨-, rfl⟩ | ⟨-, rfl⟩
  · exact ⟨hinv, hw, hr, hdw, hdr⟩
  · obtain ⟨n, k, hlenW, hfitW, hlenR, hfitR⟩ := step_appends_fit hinv hheld ht
    rw [fits_eq_true_iff] at hfitW hfitR
    simp only [length_wBuffer, length_rBuffer] at *
    exact ⟨everyStepKeepsTheInvariant _ t hinv ht, by omega, by omega, by omega, by omega⟩
  · simp only [length_wBuffer, length_rBuffer] at *
    exact ⟨hinv, by omega, hr, by omega, hdr⟩
  · simp only [length_wBuffer, length_rBuffer] at *
    exact ⟨hinv, hw, by omega, hdw, by omega⟩
  · exact ⟨hinv, hw, hr, hdw, hdr⟩

theorem runInput_command {w : Command} {s : State} (hr : s.hasBeenReset = true) :
    runInput (.command w) s = execWord w s := by
  simp [runInput, hr]

/-- An input is run alike whatever is presented after it. -/
theorem runInput_with_inputs {x : HostInput} {s t : State} (l : List HostInput) (h : runInput x s = .next t) :
    runInput x { s with inputs := l } = .next { t with inputs := l } := by
  match x with
  | .reset w => cases h; rfl
  | .command w =>
    by_cases hr : s.hasBeenReset = true
    · rw [runInput_command hr] at h
      exact (runInput_command (s := { s with inputs := l }) hr).trans (execWord_with_inputs l h)
    · simp [runInput, hr] at h

/-- The step of the first of the inputs, whatever is presented after it. -/
theorem step_with_inputs {x : HostInput} {rest : List HostInput} {s t : State} (hi : s.inputs = x :: rest)
    (h : step s = .next t) (l : List HostInput) :
    step { s with inputs := x :: l } = .next { t with inputs := l } := by
  rw [step_of_inputs_cons hi] at h
  exact (step_of_inputs_cons rfl).trans (runInput_with_inputs (s := { s with inputs := rest }) l h)

/-- `taken` leads the architectural machine from `s` to `t`, when `t.inputs` is presented after it. -/
def Reaches (s : State) (taken : List HostInput) (t : State) : Prop :=
  Host.Core.run Sys2Proof.core taken.length { s with inputs := taken ++ t.inputs } = .next t

theorem reaches_nil (s : State) : Reaches s [] s := rfl

/-- Which inputs a state has pending is no matter for where other inputs lead. -/
theorem reaches_with_inputs_iff {s t : State} {taken l : List HostInput} :
    Reaches { s with inputs := l } taken t ↔ Reaches s taken t := Iff.rfl

/-- One step, then the inputs taken from there. -/
theorem reaches_of_step {s u t : State} {taken : List HostInput} (h : step s = .next u) (ht : Reaches u taken t) :
    ∃ taken', Reaches s taken' t ∧ (u.inputs = taken ++ t.inputs → s.inputs = taken' ++ t.inputs) := by
  match hi : s.inputs with
  | [] =>
    rw [step_of_inputs_nil hi] at h
    cases h
    exact ⟨taken, ht, fun hu => hi ▸ hu⟩
  | x :: rest =>
    have hrest : u.inputs = rest := by rw [inputsAreTakenOnceInOrder.1 s u h, hi, List.tail_cons]
    refine ⟨x :: taken, ?_, fun hu => by rw [← hrest, hu, List.cons_append]⟩
    have hstep : Sys2Proof.core.step { s with inputs := x :: (taken ++ t.inputs) }
        = .next { u with inputs := taken ++ t.inputs } := step_with_inputs hi h _
    simp only [Reaches, List.length_cons, List.cons_append, Host.Core.run, hstep]
    exact ht

/-- Settles O59: a held command and the host's consuming leave the core alone, reset presents another input, and a step
takes one. -/
theorem backpressureChangesOnlyTiming : Obligations.BackpressureChangesOnlyTiming := by
  intro depth ms
  induction ms with
  | nil =>
    intro b b' h
    cases h
    exact ⟨[], reaches_nil _, fun _ => rfl⟩
  | cons m ms ih =>
    intro b b' h
    obtain ⟨c, hc⟩ : ∃ c, bufferedStep depth m b = .next c := by
      match hm : bufferedStep depth m b with
      | .next c => exact ⟨c, rfl⟩
      | .fault r => simp [bufferedRun, hm] at h
      | .refused r => simp [bufferedRun, hm] at h
    rw [bufferedRun_cons ms hc] at h
    obtain ⟨taken, hrun, horder⟩ := ih c b' h
    have horder' : .assertReset ∉ m :: ms → c.core.inputs = taken ++ b'.core.inputs :=
      fun hno => horder fun hmem => hno (List.mem_cons_of_mem _ hmem)
    rcases bufferedStep_cases hc with ⟨-, -, rfl⟩ | ⟨-, -, u, hu, rfl⟩ | ⟨-, rfl⟩ | ⟨-, rfl⟩ | ⟨rfl, rfl⟩
    · exact ⟨taken, hrun, horder'⟩
    · obtain ⟨taken', hrun', hinputs⟩ := reaches_of_step hu hrun
      exact ⟨taken', hrun', fun hno => hinputs (horder' hno)⟩
    · exact ⟨taken, hrun, horder'⟩
    · exact ⟨taken, hrun, horder'⟩
    · exact ⟨taken, reaches_with_inputs_iff.mp hrun, fun hno => absurd (List.mem_cons_self ..) hno⟩

end Sys2Proof.Machine
